-- ==== Sys2Proof/Word.lean ====
section
/-! DEFINITION. The machine's basic types: the 16-bit word of every register slot and every memory word
(spec/00_scope.md R5, R9), the 8-bit character of the output sink (spec/45_trap.md R180), and the number of a
general register (spec/30_encoding.md R82). -/

namespace Sys2Proof

/-- `XLEN` = 16: every register slot, every memory word and every address (R5). -/
abbrev Word := BitVec 16

/-- A character of the output sink, and a byte of a program image (R44, R60). -/
abbrev Byte := BitVec 8

/-- `i` of `Ri`, one of the `NREG` = 8 general registers (R5, R82). -/
abbrev Reg := Fin 8

end Sys2Proof
end

