-- ==== Sys2Proof/Config.lean ====
section
/-! DEFINITION. What is fixed for the machine but not by the source document: the parameters of spec/00_scope.md R6
with the values the spec gives them (a different value is a change of this file only), the two configuration flags of
spec/93_implementation_defined.md U2 and U4, and the open texts of R7 as free values that nothing can evaluate.
PRESUMED (log 3 to log 6): the spec supplies the numbers of the opcodes, vectors, devices and flags from general
knowledge. -/

namespace Sys2Proof.Config

/-! ### The sixteen opcode numbers (R6, R90, decision D1; PRESUMED, log 3, unsafe) -/

def opcBr   : BitVec 4 := 0x0
def opcAdd  : BitVec 4 := 0x1
def opcLd   : BitVec 4 := 0x2
def opcSt   : BitVec 4 := 0x3
def opcJsr  : BitVec 4 := 0x4
def opcAnd  : BitVec 4 := 0x5
def opcLdr  : BitVec 4 := 0x6
def opcStr  : BitVec 4 := 0x7
def opcRti  : BitVec 4 := 0x8
def opcNot  : BitVec 4 := 0x9
def opcLdi  : BitVec 4 := 0xA
def opcSti  : BitVec 4 := 0xB
def opcJmp  : BitVec 4 := 0xC
def opcRes  : BitVec 4 := 0xD
def opcLea  : BitVec 4 := 0xE
def opcTrap : BitVec 4 := 0xF

/-! ### The six trap vectors (R6, R96, decision D2; PRESUMED, log 4, unsafe) -/

def tvGetc  : Byte := 0x20
def tvOut   : Byte := 0x21
def tvPuts  : Byte := 0x22
def tvIn    : Byte := 0x23
def tvPutsp : Byte := 0x24
def tvHalt  : Byte := 0x25

/-! ### The device addresses (R6, R33, decision D3; PRESUMED, log 5, unsafe) -/

/-- Address of the keyboard status register. -/
def kbsr : Word := 0xFE00
/-- Address of the keyboard data register. -/
def kbdr : Word := 0xFE02

/-! ### The values of the condition code (R6, R26, decision D4; PRESUMED, log 6, unsafe) -/

/-- POSITIVE. -/
def flPos : Word := 0b001
/-- ZERO. -/
def flZro : Word := 0b010
/-- NEGATIVE. -/
def flNeg : Word := 0b100

/-- `MAX_ADDRESS`, where the fetch increment saturates (R6, R111, decision D5; DEDUCED, log 7, unsafe). -/
def maxAddress : Word := 0xFFFF

/-- `TRAP_WRITES_R7` (U4): the first step of every TRAP writes the incremented PC to R7.
Default false (decision D9; DEDUCED, log 10, unsafe). -/
def trapWritesR7 : Bool := false

/-- `TRAP_INPUT_SETS_FLAGS` (U2): GETC and IN set the flags from R0. Default false (decision D10; DEDUCED, log 11,
unsafe). -/
def trapInputSetsFlags : Bool := false

/-! ### Open texts (R7): free values (log 15, safe) -/

/-- `IN_PROMPT`, decision D14: the source gives no text. -/
opaque inPrompt : List Byte

/-- `HALT_NOTICE`, decision D15: the source gives no text. -/
opaque haltNotice : List Byte

/-- `DIAG_TEXT`, decision D21: the text of the bad-opcode diagnostic, made from the opcode and the instruction word. -/
opaque diagText : Nat → Word → String

end Sys2Proof.Config
end

