-- ==== Sys2Proof/Syntax.lean ====
section
/-! DEFINITION. The instructions: one constructor for each of the 25 rows of spec/opcode_table.json, in the table's
order, with the operand fields of spec/30_encoding.md R81 to R85. Bits no field covers are not part of an instruction
(R92; DEDUCED, log 22). -/

namespace Sys2Proof

/-- An instruction. Immediates and offsets are the fields as they stand in the word: they are sign-extended where
they are used (R84). -/
inductive Instr where
  /-- BR: `cond` is the 3-bit mask `instr[11:9]` (n, z, p from the top bit down), R141. -/
  | br (cond : BitVec 3) (pcOffset9 : BitVec 9)
  /-- ADD, register mode, R131. -/
  | addReg (dr sr1 sr2 : Reg)
  /-- ADD, immediate mode, R132. -/
  | addImm (dr sr1 : Reg) (imm5 : BitVec 5)
  /-- LD, R150. -/
  | ld (dr : Reg) (pcOffset9 : BitVec 9)
  /-- ST, R160. -/
  | st (sr : Reg) (pcOffset9 : BitVec 9)
  /-- JSR, R143. -/
  | jsr (pcOffset11 : BitVec 11)
  /-- JSRR, R144. -/
  | jsrr (base : Reg)
  /-- AND, register mode, R133. -/
  | andReg (dr sr1 sr2 : Reg)
  /-- AND, immediate mode, R134. -/
  | andImm (dr sr1 : Reg) (imm5 : BitVec 5)
  /-- LDR, R152. -/
  | ldr (dr base : Reg) (offset6 : BitVec 6)
  /-- STR, R162. -/
  | str (sr base : Reg) (offset6 : BitVec 6)
  /-- RTI, R190. -/
  | rti
  /-- NOT, R135. -/
  | notReg (dr sr : Reg)
  /-- LDI, R151. -/
  | ldi (dr : Reg) (pcOffset9 : BitVec 9)
  /-- STI, R161. -/
  | sti (sr : Reg) (pcOffset9 : BitVec 9)
  /-- JMP, and RET when `base` is 7, R142. -/
  | jmp (base : Reg)
  /-- RES, R191. -/
  | res
  /-- LEA, R153. -/
  | lea (dr : Reg) (pcOffset9 : BitVec 9)
  /-- TRAP x20, R172. -/
  | trapGetc
  /-- TRAP x21, R173. -/
  | trapOut
  /-- TRAP x22, R174. -/
  | trapPuts
  /-- TRAP x23, R175. -/
  | trapIn
  /-- TRAP x24, R176. -/
  | trapPutsp
  /-- TRAP x25, R177. -/
  | trapHalt
  /-- TRAP with a vector that is none of the six, R178. -/
  | trapOther (trapvect8 : Byte)
  deriving DecidableEq, Repr

/-- RET is JMP R7 and nothing else (R99, R142). -/
def Instr.ret : Instr := .jmp 7

/-- NOP is BR with an empty mask and offset 0 (R99). -/
def Instr.nop : Instr := .br 0 0

/-- The name of an instruction's row in spec/opcode_table.json. -/
def Instr.mnemonic : Instr → String
  | .br _ _ => "BR"
  | .addReg _ _ _ => "ADD_reg"
  | .addImm _ _ _ => "ADD_imm"
  | .ld _ _ => "LD"
  | .st _ _ => "ST"
  | .jsr _ => "JSR"
  | .jsrr _ => "JSRR"
  | .andReg _ _ _ => "AND_reg"
  | .andImm _ _ _ => "AND_imm"
  | .ldr _ _ _ => "LDR"
  | .str _ _ _ => "STR"
  | .rti => "RTI"
  | .notReg _ _ => "NOT"
  | .ldi _ _ => "LDI"
  | .sti _ _ => "STI"
  | .jmp _ => "JMP"
  | .res => "RES"
  | .lea _ _ => "LEA"
  | .trapGetc => "GETC"
  | .trapOut => "OUT"
  | .trapPuts => "PUTS"
  | .trapIn => "IN"
  | .trapPutsp => "PUTSP"
  | .trapHalt => "HALT"
  | .trapOther _ => "TRAP_other"

end Sys2Proof
end

