-- ==== Sys2Proof/WellFormed.lean ====
section
/-! DEFINITION. When an `Instr` is an instruction of the hardware. Every value of every register selector, mask,
immediate and offset is legal (spec/30_encoding.md R82, R84, R92), and the field types hold nothing else. The one check
is the table's: TRAP_other is a TRAP whose vector is none of the six named ones (R96, R97). -/

namespace Sys2Proof

/-- The six vectors that select a trap-service routine (R96). -/
def namedVectors : List Byte :=
  [Config.tvGetc, Config.tvOut, Config.tvPuts, Config.tvIn, Config.tvPutsp, Config.tvHalt]

/-- An instruction some word decodes to. -/
def Instr.wf : Instr → Bool
  | .br _ _ => true
  | .addReg _ _ _ => true
  | .addImm _ _ _ => true
  | .ld _ _ => true
  | .st _ _ => true
  | .jsr _ => true
  | .jsrr _ => true
  | .andReg _ _ _ => true
  | .andImm _ _ _ => true
  | .ldr _ _ _ => true
  | .str _ _ _ => true
  | .rti => true
  | .notReg _ _ => true
  | .ldi _ _ => true
  | .sti _ _ => true
  | .jmp _ => true
  | .res => true
  | .lea _ _ => true
  | .trapGetc => true
  | .trapOut => true
  | .trapPuts => true
  | .trapIn => true
  | .trapPutsp => true
  | .trapHalt => true
  | .trapOther v => !namedVectors.contains v

end Sys2Proof
end

