-- ==== Sys2Proof/Decode.lean ====
section
/-! DEFINITION. From a 16-bit word to an instruction (spec/30_encoding.md R80 to R85, R97), total on every word, and
from an instruction to the word the spec's assembler notation emits for it (R98). The opcode is an argument of
`decodeOp` of its own, so that the dispatcher's default arm (R94: an opcode that is none of the sixteen) stands in the
model although no word reaches it (log 20). -/

namespace Sys2Proof

/-! ### The fields of a word -/

/-- `instr[15:12]` (R80, R113). -/
def opcodeOf (w : Word) : BitVec 4 := w.extractLsb' 12 4

/-- The register selector whose lowest bit is `lo` (R82). -/
def regField (w : Word) (lo : Nat) : Reg := (w.extractLsb' lo 3).toFin

/-- `mode = instr[5]` of ADD and AND (R83). -/
def modeBit (w : Word) : Bool := w.getLsbD 5

/-- `long = instr[11]` of JSR and JSRR (R83). -/
def longBit (w : Word) : Bool := w.getLsbD 11

/-- `cond = instr[11:9]` of BR (R85). -/
def condField (w : Word) : BitVec 3 := w.extractLsb' 9 3

/-- `imm5 = instr[4:0]` (R84). -/
def imm5Field (w : Word) : BitVec 5 := w.extractLsb' 0 5

/-- `offset6 = instr[5:0]` (R84). -/
def offset6Field (w : Word) : BitVec 6 := w.extractLsb' 0 6

/-- `pcOffset9 = instr[8:0]` (R84). -/
def pcOffset9Field (w : Word) : BitVec 9 := w.extractLsb' 0 9

/-- `pcOffset11 = instr[10:0]` (R84). -/
def pcOffset11Field (w : Word) : BitVec 11 := w.extractLsb' 0 11

/-- `trapvect8 = instr[7:0]` (R85). -/
def trapvect8Field (w : Word) : Byte := w.extractLsb' 0 8

/-! ### Decoding -/

/-- Why an opcode and a word name no instruction. -/
inductive DecodeError where
  /-- The opcode value is none of the sixteen of R90 (R94). No 16-bit word gives one. -/
  | badOpcode (op : Nat)
  deriving DecidableEq, Repr

/-- The routine a TRAP selects by its low 8 bits (R96, R170). -/
def decodeTrap (v : Byte) : Instr :=
  if v = Config.tvGetc then .trapGetc
  else if v = Config.tvOut then .trapOut
  else if v = Config.tvPuts then .trapPuts
  else if v = Config.tvIn then .trapIn
  else if v = Config.tvPutsp then .trapPutsp
  else if v = Config.tvHalt then .trapHalt
  else .trapOther v

/-- The instruction of opcode `op` whose fields stand in `w` (R97, R114). -/
def decodeOp (op : Nat) (w : Word) : Except DecodeError Instr :=
  if op = Config.opcBr.toNat then .ok (.br (condField w) (pcOffset9Field w))
  else if op = Config.opcAdd.toNat then
    .ok (if modeBit w then .addImm (regField w 9) (regField w 6) (imm5Field w)
         else .addReg (regField w 9) (regField w 6) (regField w 0))
  else if op = Config.opcLd.toNat then .ok (.ld (regField w 9) (pcOffset9Field w))
  else if op = Config.opcSt.toNat then .ok (.st (regField w 9) (pcOffset9Field w))
  else if op = Config.opcJsr.toNat then
    .ok (if longBit w then .jsr (pcOffset11Field w) else .jsrr (regField w 6))
  else if op = Config.opcAnd.toNat then
    .ok (if modeBit w then .andImm (regField w 9) (regField w 6) (imm5Field w)
         else .andReg (regField w 9) (regField w 6) (regField w 0))
  else if op = Config.opcLdr.toNat then .ok (.ldr (regField w 9) (regField w 6) (offset6Field w))
  else if op = Config.opcStr.toNat then .ok (.str (regField w 9) (regField w 6) (offset6Field w))
  else if op = Config.opcRti.toNat then .ok .rti
  else if op = Config.opcNot.toNat then .ok (.notReg (regField w 9) (regField w 6))
  else if op = Config.opcLdi.toNat then .ok (.ldi (regField w 9) (pcOffset9Field w))
  else if op = Config.opcSti.toNat then .ok (.sti (regField w 9) (pcOffset9Field w))
  else if op = Config.opcJmp.toNat then .ok (.jmp (regField w 6))
  else if op = Config.opcRes.toNat then .ok .res
  else if op = Config.opcLea.toNat then .ok (.lea (regField w 9) (pcOffset9Field w))
  else if op = Config.opcTrap.toNat then .ok (decodeTrap (trapvect8Field w))
  else .error (.badOpcode op)

/-- The instruction a word is (R97). -/
def decode (w : Word) : Except DecodeError Instr := decodeOp (opcodeOf w).toNat w

/-- The decoder on a word numbered as spec/opcode_table.json numbers it: the low `nbits` bits of `w`, the bits above
them 0. An instruction is 16 bits long (R80), so a longer one is none. -/
def decodeTableWord (nbits w : Nat) : Option Instr :=
  if nbits ≤ 16 then
    match decode (BitVec.ofNat 16 (w % 2 ^ nbits)) with
    | .ok i => some i
    | .error _ => none
  else none

/-! ### The opcode table -/

/-- A row of spec/opcode_table.json: its bits under `mask` are `pattern`. -/
structure TableRow where
  mnemonic : String
  pattern : Word
  mask : Word
  deriving DecidableEq, Repr

/-- The word has the row's fixed bits. -/
def TableRow.holds (r : TableRow) (w : Word) : Bool := w &&& r.mask == r.pattern

/-- The 25 rows of spec/opcode_table.json in its order, TRAP_other last (R97). -/
def opcodeTable : List TableRow :=
  [⟨"BR", 0x0000, 0xF000⟩,
   ⟨"ADD_reg", 0x1000, 0xF020⟩,
   ⟨"ADD_imm", 0x1020, 0xF020⟩,
   ⟨"LD", 0x2000, 0xF000⟩,
   ⟨"ST", 0x3000, 0xF000⟩,
   ⟨"JSR", 0x4800, 0xF800⟩,
   ⟨"JSRR", 0x4000, 0xF800⟩,
   ⟨"AND_reg", 0x5000, 0xF020⟩,
   ⟨"AND_imm", 0x5020, 0xF020⟩,
   ⟨"LDR", 0x6000, 0xF000⟩,
   ⟨"STR", 0x7000, 0xF000⟩,
   ⟨"RTI", 0x8000, 0xF000⟩,
   ⟨"NOT", 0x9000, 0xF000⟩] ++
  [⟨"LDI", 0xA000, 0xF000⟩,
   ⟨"STI", 0xB000, 0xF000⟩,
   ⟨"JMP", 0xC000, 0xF000⟩,
   ⟨"RES", 0xD000, 0xF000⟩,
   ⟨"LEA", 0xE000, 0xF000⟩,
   ⟨"GETC", 0xF020, 0xF0FF⟩,
   ⟨"OUT", 0xF021, 0xF0FF⟩,
   ⟨"PUTS", 0xF022, 0xF0FF⟩,
   ⟨"IN", 0xF023, 0xF0FF⟩,
   ⟨"PUTSP", 0xF024, 0xF0FF⟩,
   ⟨"HALT", 0xF025, 0xF0FF⟩,
   ⟨"TRAP_other", 0xF000, 0xF000⟩]

/-- The row a word belongs to: the first whose fixed bits it has (R97). -/
def tableMnemonic (w : Word) : Option String := (opcodeTable.find? (·.holds w)).map (·.mnemonic)

/-! ### Encoding -/

/-- The three bits of a register selector (R82). -/
def regBits (r : Reg) : BitVec 3 := BitVec.ofFin r

/-- Fields side by side, the highest first, that fill a word. -/
def pack {n : Nat} (fields : BitVec n) (fills : n = 16 := by rfl) : Word := fields.cast fills

/-- The word the notation of R98 emits: ignored bits 0, but NOT's low six bits 1. -/
def encode : Instr → Word
  | .br cond off => pack (Config.opcBr ++ cond ++ off)
  | .addReg dr sr1 sr2 => pack (Config.opcAdd ++ regBits dr ++ regBits sr1 ++ 0b000#3 ++ regBits sr2)
  | .addImm dr sr1 imm => pack (Config.opcAdd ++ regBits dr ++ regBits sr1 ++ 0b1#1 ++ imm)
  | .ld dr off => pack (Config.opcLd ++ regBits dr ++ off)
  | .st sr off => pack (Config.opcSt ++ regBits sr ++ off)
  | .jsr off => pack (Config.opcJsr ++ 0b1#1 ++ off)
  | .jsrr base => pack (Config.opcJsr ++ 0b000#3 ++ regBits base ++ 0b000000#6)
  | .andReg dr sr1 sr2 => pack (Config.opcAnd ++ regBits dr ++ regBits sr1 ++ 0b000#3 ++ regBits sr2)
  | .andImm dr sr1 imm => pack (Config.opcAnd ++ regBits dr ++ regBits sr1 ++ 0b1#1 ++ imm)
  | .ldr dr base off => pack (Config.opcLdr ++ regBits dr ++ regBits base ++ off)
  | .str sr base off => pack (Config.opcStr ++ regBits sr ++ regBits base ++ off)
  | .rti => pack (Config.opcRti ++ 0#12)
  | .notReg dr sr => pack (Config.opcNot ++ regBits dr ++ regBits sr ++ 0b111111#6)
  | .ldi dr off => pack (Config.opcLdi ++ regBits dr ++ off)
  | .sti sr off => pack (Config.opcSti ++ regBits sr ++ off)
  | .jmp base => pack (Config.opcJmp ++ 0b000#3 ++ regBits base ++ 0b000000#6)
  | .res => pack (Config.opcRes ++ 0#12)
  | .lea dr off => pack (Config.opcLea ++ regBits dr ++ off)
  | .trapGetc => pack (Config.opcTrap ++ 0#4 ++ Config.tvGetc)
  | .trapOut => pack (Config.opcTrap ++ 0#4 ++ Config.tvOut)
  | .trapPuts => pack (Config.opcTrap ++ 0#4 ++ Config.tvPuts)
  | .trapIn => pack (Config.opcTrap ++ 0#4 ++ Config.tvIn)
  | .trapPutsp => pack (Config.opcTrap ++ 0#4 ++ Config.tvPutsp)
  | .trapHalt => pack (Config.opcTrap ++ 0#4 ++ Config.tvHalt)
  | .trapOther v => pack (Config.opcTrap ++ 0#4 ++ v)

end Sys2Proof
end

