-- ==== Sys2Proof/Machine/Memory.lean ====
section
/-! DEFINITION. Memory: the array of 65536 16-bit words of spec/10_state.md R30, as a list of (word address, word)
pairs in one canonical form. The spec's smallest addressable unit is the 16-bit word and "there is no byte address"
(R30), so a cell is a word (DESIGN CHOICE, log 1, safe). -/

namespace Sys2Proof.Machine

/-- `MEM_WORDS` (R5). -/
def memWords : Nat := 65536

/-- The listed words, addresses strictly rising, none equal to `Memory.blank`. -/
abbrev Memory := List (Nat × Word)

/-- What an unlisted address reads as (DESIGN CHOICE, log 2, unsafe at `State.reset` only: a memory of any contents is
a list of this form). -/
def Memory.blank : Word := 0x0000

/-- `M[a]`. -/
def Memory.read : Memory → Nat → Word
  | [], _ => Memory.blank
  | (k, w) :: m, a => if k = a then w else Memory.read m a

/-- The memory without an entry for `a`. -/
def Memory.erase : Memory → Nat → Memory
  | [], _ => []
  | (k, w) :: m, a => if k = a then Memory.erase m a else (k, w) :: Memory.erase m a

/-- The memory with the entry `(a, v)` before the first entry above `a`. -/
def Memory.insert : Memory → Nat → Word → Memory
  | [], a, v => [(a, v)]
  | (k, w) :: m, a, v => if k < a then (k, w) :: Memory.insert m a v else (a, v) :: (k, w) :: m

/-- `M[a] <- v` (R51), in the canonical form. -/
def Memory.write (m : Memory) (a : Nat) (v : Word) : Memory :=
  if v = Memory.blank then Memory.erase m a else Memory.insert (Memory.erase m a) a v

/-- Addresses from `lo` on, strictly rising, inside the address space, and no entry blank. -/
def Memory.wfFrom : Nat → Memory → Bool
  | _, [] => true
  | lo, (k, w) :: m => decide (lo ≤ k) && decide (k < memWords) && decide (w ≠ Memory.blank) && Memory.wfFrom (k + 1) m

/-- The canonical form: memories in it that read alike are equal. -/
def Memory.wf (m : Memory) : Bool := Memory.wfFrom 0 m

end Sys2Proof.Machine
end

