-- ==== Sys2Proof/Machine/State.lean ====
section
/-! DEFINITION. The state of the machine: every piece of state spec/10_state.md gives it, and the two ends of the
host's interface that a program observes indirectly (R36, R43, R44), as plain data. -/

namespace Sys2Proof.Machine

/-- The run state (R28). -/
inductive RunState where
  | stopped
  | running
  deriving DecidableEq, Repr

/-- What the bad-opcode arm surfaces to the host (R45, R202): the opcode, the instruction word and `DIAG_TEXT`. -/
structure Diagnostic where
  opcode : Nat
  instr  : Word
  text   : String
  deriving DecidableEq, Repr

/-- The host's input source `HOST` (R43, decision D17) as plain data (DESIGN CHOICE, log 17). -/
structure HostInput where
  /-- What the next `KeyAvailable` calls answer, in order; when used up, the answer is whether a character is there. -/
  keyAnswers : List Bool
  /-- What the next `ReadChar` calls return, in order. -/
  chars : List Word
  /-- A key held down: what every `ReadChar` returns once `chars` is used up; `none`: those calls wait. -/
  held : Option Word
  deriving DecidableEq, Repr

/-- The two ends of the host's interface. They "are not part of the block" (R36, R47), so they outlive a run whose end
leaves no observable state of the block. -/
structure HostSide where
  /-- The input source, as the run left it. -/
  input : HostInput
  /-- The output sink, as the run left it. -/
  sink : List Byte
  deriving DecidableEq, Repr

/-- The machine. -/
structure State where
  /-- `R0` to `R7` (R20, R21). -/
  regs : Vector Word 8
  /-- The program counter (R23). -/
  pc : Word
  /-- The condition-code slot; bits 2:0 are N, Z, P (R25). -/
  cond : Word
  /-- The run state (R28). -/
  run : RunState
  /-- The 65536 words, the device words KBSR and KBDR among them (R30 to R35). -/
  mem : Memory
  /-- The bad-opcode diagnostic the host can see (R45); log 33. -/
  diag : Option Diagnostic
  /-- The host's input source (R36, R43). -/
  input : HostInput
  /-- The output sink, oldest character first (R36, R44). -/
  sink : List Byte
  /-- How many more characters the sink accepts before it rejects one; `none`: it accepts every one (R44; log 18). -/
  sinkRoom : Option Nat
  deriving DecidableEq, Repr

/-- Why a cycle ends in no next state. -/
inductive Fault where
  /-- `FatalIO` (R203): raised by `emitAll` when the sink rejects a character in OUT, PUTS, IN, PUTSP or HALT. It carries
  what the run left outside the block: the characters emitted before stay in the sink (R179), and those consumed from
  the host stay consumed (R175). Safe: it carries nothing of the block, whose state is not observable (log 36). -/
  | fatalIO (left : HostSide)
  /-- The no-end outcome of R115: raised by `scanString` of PUTS and PUTSP when the scan meets no zero word within a
  number of words after which it never will (log 31). Safe: a cycle that never ends is no completed step. -/
  | noEnd
  /-- `ReadChar` has no character to return (R115 "wait", R242): raised by `readChar` of GETC, IN and the KBSR poll.
  `step` turns it into a held state, so that no run ends with it (log 24). Safe. -/
  | inputWait
  deriving DecidableEq, Repr

/-- Why there is no meaning. -/
inductive Refusal where
  /-- Raised by an arm of `exec` whose instruction has no meaning yet; no arm does. Safe. -/
  | notModelled (mnemonic : String)
  /-- Raised by a host operation that the spec gives only while the engine is Stopped (R40, R41, R42, R46), asked for
  while it is Running (log 26, log 27). Safe. -/
  | notStopped
  /-- Raised by `loadImage` on bytes that are no program image (R61; log 19). Safe. -/
  | badImage
  deriving DecidableEq, Repr

/-- The closed list of run-ending outcomes (R200). -/
inductive RunEnd where
  | haltStop
  | badOpcode (op : Nat) (instr : Word)
  | fatalIO
  deriving DecidableEq, Repr

/-- A host that has nothing to deliver (log 17). -/
def HostInput.idle : HostInput := { keyAnswers := [], chars := [], held := none }

/-- The machine right after reset, with memory holding `MEM_RESET` (R47, R230), before an idle host and an empty sink
that accepts every character (R47: those are not part of the block; DESIGN CHOICE, log 17, log 18, log 26). -/
def State.resetWith (memReset : Memory) : State where
  regs := Vector.replicate 8 0x0000
  pc := 0x0000
  cond := 0x0000
  run := .stopped
  mem := memReset
  diag := none
  input := HostInput.idle
  sink := []
  sinkRoom := none

/-- The machine right after reset, `MEM_RESET` all zeros (R47; DESIGN CHOICE, log 2, unsafe). -/
def State.reset : State := State.resetWith []

end Sys2Proof.Machine
end

