-- ==== Sys2Proof/Machine/Ops.lean ====
section
/-! DEFINITION. The named operations every meaning is written from: registers, the two memory primitives
(spec/20_memory.md R51, R52), the host's calls (spec/10_state.md R43, R44), the run-ending outcomes
(spec/60_exceptions.md R200), trap entry (R207) and the wait for input (spec/70_reset_and_hazards.md R242). -/

namespace Sys2Proof.Machine

/-- The outcome of a part of a cycle that yields an `α`. -/
abbrev Part (α : Type) := Host.Outcome α Fault Refusal

/-- `a ; b` (R10, R11): `b` sees what `a` left; what ends `a` ends both. -/
def andThen {α β : Type} (o : Part α) (f : α → Part β) : Part β :=
  match o with
  | .next x => f x
  | .fault r => .fault r
  | .refused r => .refused r

/-! ### State, one piece at a time -/

/-- `x[i]` (R10). No register is hard-wired (R21). -/
def State.reg (s : State) (i : Reg) : Word := s.regs[i]

/-- `x[i] <- v` (R10). -/
def State.setReg (s : State) (i : Reg) (v : Word) : State := { s with regs := s.regs.set i v }

/-- `pc <- v`. -/
def State.setPc (s : State) (v : Word) : State := { s with pc := v }

/-- `cond <- v`. -/
def State.setCond (s : State) (v : Word) : State := { s with cond := v }

/-- `run <- r`. -/
def State.setRun (s : State) (r : RunState) : State := { s with run := r }

/-- The whole memory replaced. -/
def State.setMem (s : State) (m : Memory) : State := { s with mem := m }

/-- The diagnostic the host sees replaced. -/
def State.setDiag (s : State) (d : Option Diagnostic) : State := { s with diag := d }

/-- The host's input source replaced. -/
def State.setInput (s : State) (h : HostInput) : State := { s with input := h }

/-- Characters appended to the sink, and the room it has left. -/
def State.setSink (s : State) (cs : List Byte) (room : Option Nat) : State := { s with sink := cs, sinkRoom := room }

/-- `M[a]`, with no side effect. -/
def State.word (s : State) (a : Word) : Word := s.mem.read a.toNat

/-- `MemWrite(a, 1, v)` (R51): a plain store at every address. -/
def State.memWrite (s : State) (a v : Word) : State := s.setMem (s.mem.write a.toNat v)

/-! ### The run-ending outcomes -/

/-- What a state holds that is not part of the block. -/
def State.hostSide (s : State) : HostSide := { input := s.input, sink := s.sink }

/-- `raise <Outcome>(info)` (R200 to R203): the two that stop the engine leave an observable state, `FatalIO` leaves none
but what is outside the block, with the effects of exactly the steps before the raise (R179, R207; log 36). Nothing is
saved and nothing is vectored (R207). -/
def raise (o : RunEnd) (s : State) : Part State :=
  match o with
  | .haltStop => .next (s.setRun .stopped)
  | .badOpcode op w => .next ((s.setRun .stopped).setDiag (some ⟨op, w, Config.diagText op w⟩))
  | .fatalIO => .fault (.fatalIO s.hostSide)

/-! ### The host's input -/

/-- `KeyAvailable()` (R43): the scripted answer, or that of the reference host of decision D17. -/
def HostInput.keyAvailable (h : HostInput) : Bool × HostInput :=
  match h.keyAnswers with
  | b :: bs => (b, { h with keyAnswers := bs })
  | [] => (!h.chars.isEmpty || h.held.isSome, h)

/-- `ReadChar()` (R43): the next character, `none` while there is none to return. -/
def HostInput.readChar (h : HostInput) : Option (Word × HostInput) :=
  match h.chars with
  | c :: cs => some (c, { h with chars := cs })
  | [] => h.held.map (·, h)

/-- `ReadChar()` in a cycle: waits while the host has nothing (R242). -/
def readChar (s : State) : Part (Word × State) :=
  match s.input.readChar with
  | some (c, h) => .next (c, s.setInput h)
  | none => .fault .inputWait

/-! ### The output sink -/

/-- `for each c in cs: Emit(c)` (R44): all of `cs` appended, or `FatalIO` at the first character the sink has no room
for, those before it appended (R179). -/
def emitAll (cs : List Byte) (s : State) : Part State :=
  match s.sinkRoom with
  | none => .next (s.setSink (s.sink ++ cs) none)
  | some n =>
    if cs.length ≤ n then .next (s.setSink (s.sink ++ cs) (some (n - cs.length)))
    else raise .fatalIO (s.setSink (s.sink ++ cs.take n) (some 0))

/-- `Emit(c)` (R44). -/
def emit (c : Byte) (s : State) : Part State := emitAll [c] s

/-! ### Reading memory -/

/-- What a read of KBSR does first (R52): ask the host; with a key, `M[KBSR] <- 0x8000` and `M[KBDR] <- ReadChar()`;
without, `M[KBSR] <- 0x0000`. The word written is assigned, not ORed (decision D16; DEDUCED, log 16). -/
def pollKeyboard (s : State) : Part State :=
  if s.input.keyAvailable.1 then
    andThen (readChar ((s.setInput s.input.keyAvailable.2).memWrite Config.kbsr 0x8000)) fun (c, s) =>
      .next (s.memWrite Config.kbdr c)
  else .next ((s.setInput s.input.keyAvailable.2).memWrite Config.kbsr 0x0000)

/-- `MemRead(a, 1)` (R52, R53). -/
def memRead (a : Word) (s : State) : Part (Word × State) :=
  if a = Config.kbsr then andThen (pollKeyboard s) fun s => .next (s.word a, s)
  else .next (s.word a, s)

/-! ### Trap entry and the wait -/

/-- Entering a trap routine (R171, R207) saves nothing and changes nothing, unless the configuration flag
`TRAP_WRITES_R7` is set (U4; log 10). There is no return: `pc` already is the incremented PC (R208). -/
def trapEntry (s : State) : State := if Config.trapWritesR7 then s.setReg 7 s.pc else s

/-- A cycle that waits for input has not happened: the state is held as it was before the cycle, and the next step
tries again (R242, R12; DEDUCED, log 24). -/
def holdWhileWaiting (s : State) (o : Part State) : Part State :=
  match o with
  | .next t => .next t
  | .fault .inputWait => .next s
  | .fault (.fatalIO left) => .fault (.fatalIO left)
  | .fault .noEnd => .fault .noEnd
  | .refused r => .refused r

end Sys2Proof.Machine
end

