-- ==== Sys2Proof/Machine/Flags.lean ====
section
/-! DEFINITION. The condition code: what the flag-writing instructions set (spec/40_cycle.md R117, R118) and what BR
tests (spec/42_control.md R141). -/

namespace Sys2Proof.Machine

/-- The condition of a 16-bit value (R117). -/
def condOf (v : Word) : Word :=
  if v = 0x0000 then Config.flZro
  else if v.getLsbD 15 then Config.flNeg
  else Config.flPos

/-- `setcc(i)`: the whole `cond` slot from `x[i]` (R117). -/
def setcc (i : Reg) (s : State) : State := s.setCond (condOf (s.reg i))

/-- `x[i] <- v ; setcc(i)`: how ADD, AND, NOT, LD, LDI, LDR and LEA write their result (R27). -/
def writeResult (i : Reg) (v : Word) (s : State) : State := setcc i (s.setReg i v)

/-- `(instr[11:9] & cond[2:0]) != 0`, bit for bit (R26, R141). -/
def branchTaken (mask : BitVec 3) (s : State) : Bool := mask &&& s.cond.extractLsb' 0 3 != 0

/-- How GETC and IN write their character: all 16 bits, and the flags only if `TRAP_INPUT_SETS_FLAGS` is set (R172,
R175, U2; log 11, log 25). -/
def writeInput (c : Word) (s : State) : State :=
  if Config.trapInputSetsFlags then writeResult 0 c s else s.setReg 0 c

end Sys2Proof.Machine
end

