-- ==== Sys2Proof/Machine/Operands.lean ====
section
/-! DEFINITION. The operand forms: sign extension (spec/30_encoding.md R87), the addressing modes
(spec/43_load.md R154) and the characters packed in a word (spec/45_trap.md R174, R176, R180). -/

namespace Sys2Proof.Machine

/-- `sign_extend(x, n)` (R87), on any 16-bit `x` and `n` from 1 to 16 (R88): if bit `n - 1` is 1, all higher bits are
ORed in. DESIGN CHOICE (log 38, unsafe): for `n = 0` and for `n > 16` the spec gives no meaning
(spec/91_not_in_source.md N29); this function has a value there, which no instruction uses. -/
def signExtend (n : Nat) (x : Word) : Word :=
  if x.getLsbD (n - 1) then x ||| (0xFFFF#16 <<< n) else x

/-- `sext_N` of an N-bit field (R84, R87). -/
def sext {n : Nat} (field : BitVec n) : Word := signExtend n (field.setWidth 16)

/-- PC-relative: `pc + sext_9(pcOffset9)`, `pc` the incremented PC, modulo 2^16 (R154, R24). -/
def pcRelative (off : BitVec 9) (s : State) : Word := s.pc + sext off

/-- The target of JSR: `pc + sext_11(pcOffset11)` (R143). -/
def pcRelativeLong (off : BitVec 11) (s : State) : Word := s.pc + sext off

/-- Base plus offset: `x[base] + sext_6(offset6)`, modulo 2^16 (R154). -/
def basePlusOffset (base : Reg) (off : BitVec 6) (s : State) : Word := s.reg base + sext off

/-- `w[7:0]`, the character OUT, PUTS and the echo of IN emit (R180, decision D12; DEDUCED, log 13). -/
def lowByte (w : Word) : Byte := w.extractLsb' 0 8

/-- `w[15:8]`. -/
def highByte (w : Word) : Byte := w.extractLsb' 8 8

/-- The character PUTS emits for a word (R174). -/
def unpackOne (w : Word) : List Byte := [lowByte w]

/-- The characters PUTSP emits for a word: the low byte always, the high byte if it is not zero (R176, decision D32;
DEDUCED, log 29). -/
def unpackTwo (w : Word) : List Byte :=
  lowByte w :: (if highByte w = 0x00 then [] else [highByte w])

end Sys2Proof.Machine
end

