-- ==== Sys2Proof/Machine/Control.lean ====
section
/-! DEFINITION. The control instructions (spec/42_control.md), on the state whose `pc` is the incremented PC. Target
additions wrap and do not saturate (R140). -/

namespace Sys2Proof.Machine

/-- R141: `if (instr[11:9] & cond[2:0]) != 0 then pc <- pc + sext_9(pcOffset9)`. -/
def execBr (cond : BitVec 3) (off : BitVec 9) (s : State) : Part State :=
  .next (if branchTaken cond s then s.setPc (pcRelative off s) else s)

/-- R142: `pc <- x[base]`. -/
def execJmp (base : Reg) (s : State) : Part State := .next (s.setPc (s.reg base))

/-- `x[7] <- pc`: the link of JSR and JSRR, the incremented PC (R143, R144). -/
def link (s : State) : State := s.setReg 7 s.pc

/-- R143: `x[7] <- pc ; pc <- pc + sext_11(pcOffset11)`. -/
def execJsr (off : BitVec 11) (s : State) : Part State := .next ((link s).setPc (pcRelativeLong off (link s)))

/-- R144: `x[7] <- pc ; pc <- x[base]`, the base read after R7 was written (decision D22; DEDUCED, log 21). -/
def execJsrr (base : Reg) (s : State) : Part State := .next ((link s).setPc ((link s).reg base))

end Sys2Proof.Machine
end

