-- ==== Sys2Proof/Machine/Load.lean ====
section
/-! DEFINITION. The load instructions (spec/43_load.md), on the state whose `pc` is the incremented PC. Every read is a
`memRead`, with the keyboard poll at KBSR (spec/20_memory.md R54). -/

namespace Sys2Proof.Machine

/-- `x[DR] <- MemRead(a, 1) ; setcc(DR)`, shared by LD, LDI and LDR. -/
def loadInto (dr : Reg) (a : Word) (s : State) : Part State :=
  andThen (memRead a s) fun (v, s) => .next (writeResult dr v s)

/-- R150. -/
def execLd (dr : Reg) (off : BitVec 9) (s : State) : Part State := loadInto dr (pcRelative off s) s

/-- R151: first the pointer, then the data. -/
def execLdi (dr : Reg) (off : BitVec 9) (s : State) : Part State :=
  andThen (memRead (pcRelative off s) s) fun (ptr, s) => loadInto dr ptr s

/-- R152. -/
def execLdr (dr base : Reg) (off : BitVec 6) (s : State) : Part State := loadInto dr (basePlusOffset base off s) s

/-- R153: the address, with no memory access. -/
def execLea (dr : Reg) (off : BitVec 9) (s : State) : Part State := .next (writeResult dr (pcRelative off s) s)

end Sys2Proof.Machine
end

