-- ==== Sys2Proof/Machine/Operate.lean ====
section
/-! DEFINITION. The operate instructions (spec/41_operate.md). Every meaning runs after the fetch, on the state whose
`pc` is the incremented PC; sources are read before the result is written (R130). -/

namespace Sys2Proof.Machine

/-- R131: `x[DR] <- x[SR1] + x[SR2] ; setcc(DR)`. -/
def execAddReg (dr sr1 sr2 : Reg) (s : State) : Part State := .next (writeResult dr (s.reg sr1 + s.reg sr2) s)

/-- R132: `x[DR] <- x[SR1] + sext_5(imm5) ; setcc(DR)`. -/
def execAddImm (dr sr1 : Reg) (imm5 : BitVec 5) (s : State) : Part State :=
  .next (writeResult dr (s.reg sr1 + sext imm5) s)

/-- R133: `x[DR] <- x[SR1] & x[SR2] ; setcc(DR)`. -/
def execAndReg (dr sr1 sr2 : Reg) (s : State) : Part State := .next (writeResult dr (s.reg sr1 &&& s.reg sr2) s)

/-- R134: `x[DR] <- x[SR1] & sext_5(imm5) ; setcc(DR)`. -/
def execAndImm (dr sr1 : Reg) (imm5 : BitVec 5) (s : State) : Part State :=
  .next (writeResult dr (s.reg sr1 &&& sext imm5) s)

/-- R135: `x[DR] <- ~x[SR] ; setcc(DR)`. -/
def execNot (dr sr : Reg) (s : State) : Part State := .next (writeResult dr (~~~ s.reg sr) s)

end Sys2Proof.Machine
end

