-- ==== Sys2Proof/Machine/Reserved.lean ====
section
/-! DEFINITION. The no-operation opcodes (spec/46_reserved.md): recognised, and nothing happens after the fetch. -/

namespace Sys2Proof.Machine

/-- R190: RTI restores nothing; there is nothing to restore. -/
def execRti (s : State) : Part State := .next s

/-- R191: RES is no illegal instruction. -/
def execRes (s : State) : Part State := .next s

end Sys2Proof.Machine
end

