-- ==== Sys2Proof/Machine/Store.lean ====
section
/-! DEFINITION. The store instructions (spec/44_store.md), on the state whose `pc` is the incremented PC. -/

namespace Sys2Proof.Machine

/-- R160: `MemWrite(pc + sext_9(pcOffset9), 1, x[SR])`. -/
def execSt (sr : Reg) (off : BitVec 9) (s : State) : Part State := .next (s.memWrite (pcRelative off s) (s.reg sr))

/-- R161: the pointer is read with `memRead` before the store. -/
def execSti (sr : Reg) (off : BitVec 9) (s : State) : Part State :=
  andThen (memRead (pcRelative off s) s) fun (ptr, s) => .next (s.memWrite ptr (s.reg sr))

/-- R162: `MemWrite(x[base] + sext_6(offset6), 1, x[SR])`. -/
def execStr (sr base : Reg) (off : BitVec 6) (s : State) : Part State :=
  .next (s.memWrite (basePlusOffset base off s) (s.reg sr))

end Sys2Proof.Machine
end

