-- ==== Sys2Proof/Machine/Trap.lean ====
section
/-! DEFINITION. TRAP: the six trap-service routines built into the engine, and a TRAP with any other vector
(spec/45_trap.md). The whole routine runs inside the cycle of the instruction (R170), after `trapEntry` (R171). -/

namespace Sys2Proof.Machine

/-- R172: `x[0] <- ReadChar()`. -/
def execGetc (s : State) : Part State :=
  andThen (readChar (trapEntry s)) fun (c, s) => .next (writeInput c s)

/-- R173: `Emit(x[0][7:0])`. -/
def execOut (s : State) : Part State := emit (lowByte ((trapEntry s).reg 0)) (trapEntry s)

/-- The loop of PUTS and PUTSP (R174, R176): read a word with `memRead` (decision D13; DEDUCED, log 14); a zero word
ends it and is not emitted; otherwise emit the word's characters and go on at the next address, modulo 2^16. Out of
fuel is the no-end outcome, never a completed step (U12). -/
def scanString (unpack : Word → List Byte) : Nat → Word → State → Part State
  | 0, _, _ => .fault .noEnd
  | fuel + 1, a, s =>
    andThen (memRead a s) fun (w, s) =>
      if w = 0x0000 then .next s
      else andThen (emitAll (unpack w) s) fun s => scanString unpack fuel (a + 1) s

/-- Words after which a scan that has met no zero word never will: every lap of the address space polls the keyboard
once, so it uses up the host's finite input, after which the laps are all alike (log 31). -/
def scanFuel (s : State) : Nat :=
  65536 * (s.input.keyAnswers.length + s.input.chars.length + 2) + s.sinkRoom.getD 0 + 1

/-- R174. `R0` itself is not changed. -/
def execPuts (s : State) : Part State := scanString unpackOne (scanFuel s) ((trapEntry s).reg 0) (trapEntry s)

/-- R175: prompt, read, echo, then `R0`, in this order. -/
def execIn (s : State) : Part State :=
  andThen (emitAll Config.inPrompt (trapEntry s)) fun s =>
  andThen (readChar s) fun (c, s) =>
  andThen (emit (lowByte c) s) fun s => .next (writeInput c s)

/-- R176. -/
def execPutsp (s : State) : Part State := scanString unpackTwo (scanFuel s) ((trapEntry s).reg 0) (trapEntry s)

/-- R177: the notice, then Stopped; a notice the sink rejects is `FatalIO` (decision D34; DEDUCED, log 30). -/
def execHalt (s : State) : Part State :=
  andThen (emitAll Config.haltNotice (trapEntry s)) fun s => raise .haltStop s

/-- R178: nothing, whatever the vector (decision D11; DESIGN CHOICE of the spec, log 12). -/
def execTrapOther (_trapvect8 : Byte) (s : State) : Part State := .next (trapEntry s)

end Sys2Proof.Machine
end

