-- ==== Sys2Proof/Machine/Cycle.lean ====
section
/-! DEFINITION. The fetch-decode-execute cycle (spec/40_cycle.md R110 to R114), what `step` calls. -/

namespace Sys2Proof.Machine

/-- `if pc < MAX_ADDRESS then pc <- pc + 1`, the comparison unsigned: the fetch increment saturates (R111, R112). -/
def advancePc (s : State) : State := if s.pc < Config.maxAddress then s.setPc (s.pc + 1) else s

/-- `instr <- MemRead(pc, 1)`, with the keyboard poll when `pc = KBSR`, then the PC advance (R111). -/
def fetch (s : State) : Part (Word × State) :=
  andThen (memRead s.pc s) fun (w, s) => .next (w, advancePc s)

/-- `dispatch(opcode, instr)` (R114), with the default arm for an opcode that is none of the sixteen (R94, R202), which
no instruction word reaches (decision D20; log 20). -/
def dispatch (op : Nat) (w : Word) (s : State) : Part State :=
  match decodeOp op w with
  | .ok i => exec i s
  | .error (.badOpcode op) => raise (.badOpcode op w) s

/-- One cycle of a Running engine (R110). -/
def cycle (s : State) : Part State :=
  andThen (fetch s) fun (w, s) => dispatch (opcodeOf w).toNat w s

end Sys2Proof.Machine
end

