-- ==== Sys2Proof/Machine/Step.lean ====
section
/-! DEFINITION. One step of the machine, and how a single instruction is put where the next step fetches it. -/

namespace Sys2Proof.Machine

/-- One step. Running: one whole cycle (R12, R110), or, while it waits for input, the state held as it is (R242;
log 24). Stopped: no cycle is performed and nothing changes (R28; log 32). -/
def step (s : State) : Host.Outcome State Fault Refusal :=
  match s.run with
  | .stopped => .next s
  | .running => holdWhileWaiting s (cycle s)

/-- `s` about to fetch the word `w` (low `nbits` bits, bits above them 0): the word stands at `pc`, and the engine is
Running, as after a load and a `run` request (log 9). At `pc = KBSR` a fetch polls and never sees a stored word, so
there `pc` is first set to `0x0000` (log 35). -/
def State.withFetchWord (s : State) (nbits w : Nat) : State :=
  let s := if s.pc = Config.kbsr then s.setPc 0x0000 else s
  (s.memWrite s.pc (BitVec.ofNat 16 (w % 2 ^ nbits))).setRun .running

end Sys2Proof.Machine
end

