-- ==== Sys2Proof/Machine/Interface.lean ====
section
/-! DEFINITION. What the host can do to the block between steps (spec/10_state.md R40 to R46, spec/20_memory.md R60,
R61, spec/70_reset_and_hazards.md R230 to R232). No instruction calls these. -/

namespace Sys2Proof.Machine

/-- A request the spec gives only while the engine is Stopped (R40 to R42, R46; log 26, log 27). -/
def whileStopped (s : State) (f : State → Part State) : Part State :=
  match s.run with
  | .stopped => f s
  | .running => .refused .notStopped

/-- `reset` (R40, R230): registers and memory reconstructed in one transition, memory as `MEM_RESET`; the host's input
and the sink are not part of the block and stay (R47, decision D29; log 26). -/
def requestReset (memReset : Memory) (s : State) : Part State :=
  whileStopped s fun s =>
    .next { State.resetWith memReset with input := s.input, sink := s.sink, sinkRoom := s.sinkRoom }

/-- `run` (R41): Stopped to Running, and nothing else changes; also after a stop (decision D30; log 27). -/
def requestRun (s : State) : Part State := whileStopped s fun s => .next (s.setRun .running)

/-- Pairs of bytes as big-endian words; `none` for an odd number of bytes (R57, R60, R61). -/
def imageWords : List Byte → Option (List Word)
  | [] => some []
  | [_] => none
  | hi :: lo :: bytes => (imageWords bytes).map fun ws => (hi ++ lo) :: ws

/-- Words stored sequentially from `a` on, the address wrapping (R60). -/
def storeWords (m : Memory) (a : Word) : List Word → Memory
  | [] => m
  | w :: ws => storeWords (m.write a.toNat w) (a + 1) ws

/-- `load_image(bytes)` (R42, R60): the first word is the origin, the rest are stored from there on by plain stores; no
register changes. Bytes that are no image are refused (R61; log 19). -/
def loadImage (bytes : List Byte) (s : State) : Part State :=
  whileStopped s fun s =>
    match imageWords bytes with
    | some (origin :: ws) => .next (s.setMem (storeWords s.mem origin ws))
    | some [] => .refused .badImage
    | none => .refused .badImage

/-- Test access (R46): set a general register. -/
def testSetReg (i : Reg) (v : Word) (s : State) : Part State := whileStopped s fun s => .next (s.setReg i v)

/-- Test access (R46): set `pc`; how a program comes to start at `PC_START` (R48). -/
def testSetPc (v : Word) (s : State) : Part State := whileStopped s fun s => .next (s.setPc v)

/-- Test access (R46): set the `cond` slot; any 16-bit value (log 34). -/
def testSetCond (v : Word) (s : State) : Part State := whileStopped s fun s => .next (s.setCond v)

/-- Test access (R46): set a memory word by a plain store. -/
def testSetWord (a v : Word) (s : State) : Part State := whileStopped s fun s => .next (s.memWrite a v)

/-- Test access (R46): read a slot or a word, with no side effect, KBSR included. -/
def testReadReg (i : Reg) (s : State) : Part Word :=
  match s.run with
  | .stopped => .next (s.reg i)
  | .running => .refused .notStopped

/-- Test access (R46): read `pc`. -/
def testReadPc (s : State) : Part Word :=
  match s.run with
  | .stopped => .next s.pc
  | .running => .refused .notStopped

/-- Test access (R46): read `cond`. -/
def testReadCond (s : State) : Part Word :=
  match s.run with
  | .stopped => .next s.cond
  | .running => .refused .notStopped

/-- Test access (R46): read a memory word, with no keyboard poll (R54). -/
def testReadWord (a : Word) (s : State) : Part Word :=
  match s.run with
  | .stopped => .next (s.word a)
  | .running => .refused .notStopped

/-- Status (R45): the run state and the diagnostic, at any time. -/
def status (s : State) : RunState × Option Diagnostic := (s.run, s.diag)

/-- The host's input gains a character (R43); between steps, at any time, also while a cycle waits (log 37). -/
def deliver (c : Word) (s : State) : State := s.setInput { s.input with chars := s.input.chars ++ [c] }

/-- The images of a boot, loaded one after the other. -/
def loadImages : List (List Byte) → State → Part State
  | [], s => .next s
  | bytes :: rest, s => andThen (loadImage bytes s) fun s => loadImages rest s

/-- The boot sequence (R232): reset, the images, `pc <- PC_START` if the program does not start at `0x0000`, run. -/
def boot (memReset : Memory) (images : List (List Byte)) (pcStart : Option Word) (s : State) : Part State :=
  andThen (requestReset memReset s) fun s =>
  andThen (loadImages images s) fun s =>
  andThen (match pcStart with
    | some a => testSetPc a s
    | none => .next s) fun s => requestRun s

end Sys2Proof.Machine
end

