-- ==== Sys2Proof/Safety.lean ====
section
/-! DEFINITION. The terms claims are stated in: the invariant of the machine, when a cycle can complete, what an
instruction reads and writes, what a state has in common with another, and the unbounded string loop. -/

namespace Sys2Proof.Machine

/-! ### The invariant -/

/-- `cond` holds no flag or exactly one, and bits 15:3 are zero (spec/10_state.md R25, R27). -/
abbrev State.condLegal (s : State) : Prop :=
  s.cond = 0x0000 ∨ s.cond = Config.flPos ∨ s.cond = Config.flZro ∨ s.cond = Config.flNeg

/-- The invariant every step keeps: memory in its canonical form and a legal condition code. -/
abbrev State.Inv (s : State) : Prop := s.mem.wf = true ∧ s.condLegal

/-! ### When a cycle can complete -/

/-- The host has a character for the next `ReadChar` (spec/10_state.md R43). -/
abbrev State.hasChar (s : State) : Prop := s.input.readChar.isSome = true

/-- What the next `KeyAvailable` answers. -/
def State.keyReady (s : State) : Bool := s.input.keyAvailable.1

/-- A `MemRead` of `a` does not wait: it asks no host, or the host says no key, or it has the character it announces
(spec/20_memory.md R52). -/
abbrev State.readReady (s : State) (a : Word) : Prop := a = Config.kbsr → s.keyReady = true → s.hasChar

/-- The sink accepts `n` more characters (spec/10_state.md R44). -/
abbrev State.sinkAccepts (s : State) (n : Nat) : Prop := ∀ room, s.sinkRoom = some room → n ≤ room

/-! ### What two states have in common -/

/-- Every word of memory reads the same. -/
abbrev SameMemory (s t : State) : Prop := ∀ a : Word, t.word a = s.word a

/-- Every register reads the same. -/
abbrev SameRegs (s t : State) : Prop := ∀ r : Reg, t.reg r = s.reg r

/-- The sink and the room it has left are the same. -/
abbrev SameSink (s t : State) : Prop := t.sink = s.sink ∧ t.sinkRoom = s.sinkRoom

/-- The run state, the diagnostic, the host's input and the sink are the same. -/
abbrev SameOutside (s t : State) : Prop := t.run = s.run ∧ t.diag = s.diag ∧ t.input = s.input ∧ SameSink s t

/-- `t` is `s` with the value `v` written to `dr` and the flags set from it, as ADD, AND, NOT, LD, LDI, LDR and LEA
leave it (spec/10_state.md R27, spec/40_cycle.md R117): every other register, `pc`, all of memory and everything
outside are unchanged. -/
structure ResultWritten (dr : Reg) (v : Word) (s t : State) : Prop where
  value : t.reg dr = v
  zero : v = 0x0000 → t.cond = Config.flZro
  negative : v.getLsbD 15 = true → t.cond = Config.flNeg
  positive : v ≠ 0x0000 → v.getLsbD 15 = false → t.cond = Config.flPos
  regs : ∀ r : Reg, r ≠ dr → t.reg r = s.reg r
  pc : t.pc = s.pc
  mem : SameMemory s t
  outside : SameOutside s t

/-- `t` is `s` but for `pc`. -/
structure OnlyPcMoved (s t : State) : Prop where
  regs : SameRegs s t
  cond : t.cond = s.cond
  mem : SameMemory s t
  outside : SameOutside s t

/-- `t` is `s` with the word `v` at `a`: every other word, every register and everything outside are unchanged. -/
structure WordStored (a v : Word) (s t : State) : Prop where
  stored : t.word a = v
  others : ∀ b : Word, b ≠ a → t.word b = s.word b
  regs : SameRegs s t
  pc : t.pc = s.pc
  cond : t.cond = s.cond
  outside : SameOutside s t

/-- `t` is `s` with the characters `cs` at the end of the sink, and nothing else changed (spec/10_state.md R44). -/
structure Emitted (cs : List Byte) (s t : State) : Prop where
  sink : t.sink = s.sink ++ cs
  room : t.sinkRoom = s.sinkRoom.map (· - cs.length)
  regs : SameRegs s t
  pc : t.pc = s.pc
  cond : t.cond = s.cond
  mem : SameMemory s t
  run : t.run = s.run
  diag : t.diag = s.diag
  input : t.input = s.input

/-- What `FatalIO` leaves in the sink (spec/45_trap.md R179): all that was there, then exactly as many characters as the
sink still accepted. -/
abbrev SinkFilled (s : State) (left : HostSide) : Prop :=
  ∃ cs, left.sink = s.sink ++ cs ∧ s.sinkRoom = some cs.length

/-! ### Which registers an instruction reads and writes (spec/10_state.md R22) -/

/-- The Reads column of R22. -/
def readsRegs : Instr → List Reg
  | .br _ _ => []
  | .addReg _ sr1 sr2 => [sr1, sr2]
  | .addImm _ sr1 _ => [sr1]
  | .ld _ _ => []
  | .st sr _ => [sr]
  | .jsr _ => []
  | .jsrr base => [base]
  | .andReg _ sr1 sr2 => [sr1, sr2]
  | .andImm _ sr1 _ => [sr1]
  | .ldr _ base _ => [base]
  | .str sr base _ => [sr, base]
  | .rti => []
  | .notReg _ sr => [sr]
  | .ldi _ _ => []
  | .sti sr _ => [sr]
  | .jmp base => [base]
  | .res => []
  | .lea _ _ => []
  | .trapGetc => []
  | .trapOut => [0]
  | .trapPuts => [0]
  | .trapIn => []
  | .trapPutsp => [0]
  | .trapHalt => []
  | .trapOther _ => []

/-- The Writes column of R22. -/
def writesRegs : Instr → List Reg
  | .br _ _ => []
  | .addReg dr _ _ => [dr]
  | .addImm dr _ _ => [dr]
  | .ld dr _ => [dr]
  | .st _ _ => []
  | .jsr _ => [7]
  | .jsrr _ => [7]
  | .andReg dr _ _ => [dr]
  | .andImm dr _ _ => [dr]
  | .ldr dr _ _ => [dr]
  | .str _ _ _ => []
  | .rti => []
  | .notReg dr _ => [dr]
  | .ldi dr _ => [dr]
  | .sti _ _ => []
  | .jmp _ => []
  | .res => []
  | .lea dr _ => [dr]
  | .trapGetc => [0]
  | .trapOut => []
  | .trapPuts => []
  | .trapIn => [0]
  | .trapPutsp => []
  | .trapHalt => []
  | .trapOther _ => []

/-- The destination of the seven flag-writing instructions (R27), none for the others. -/
def flagDest : Instr → Option Reg
  | .br _ _ => none
  | .addReg dr _ _ => some dr
  | .addImm dr _ _ => some dr
  | .ld dr _ => some dr
  | .st _ _ => none
  | .jsr _ => none
  | .jsrr _ => none
  | .andReg dr _ _ => some dr
  | .andImm dr _ _ => some dr
  | .ldr dr _ _ => some dr
  | .str _ _ _ => none
  | .rti => none
  | .notReg dr _ => some dr
  | .ldi dr _ => some dr
  | .sti _ _ => none
  | .jmp _ => none
  | .res => none
  | .lea dr _ => some dr
  | .trapGetc => none
  | .trapOut => none
  | .trapPuts => none
  | .trapIn => none
  | .trapPutsp => none
  | .trapHalt => none
  | .trapOther _ => none

/-! ### The string loop without a bound -/

/-- The loop of PUTS and PUTSP as spec/45_trap.md R174 and R176 write it, with no bound on its length: `Scan unpack a s
o` says that the loop, about to read address `a` in state `s`, ends with outcome `o`. A loop that never ends has no
outcome. -/
inductive Scan (unpack : Word → List Byte) : Word → State → Part State → Prop where
  /-- The word is zero: the loop ends. -/
  | zero {a : Word} {s t : State} (read : memRead a s = .next (0x0000, t)) : Scan unpack a s (.next t)
  /-- The word is not zero and its characters are accepted: the loop goes on. -/
  | more {a w : Word} {s s1 s2 : State} {o : Part State} (read : memRead a s = .next (w, s1)) (nonzero : w ≠ 0x0000)
      (emits : emitAll (unpack w) s1 = .next s2) (rest : Scan unpack (a + 1) s2 o) : Scan unpack a s o
  /-- The read waits for the host. -/
  | waits {a : Word} {s : State} {f : Fault} (read : memRead a s = .fault f) : Scan unpack a s (.fault f)
  /-- The sink rejects a character. -/
  | rejected {a w : Word} {s s1 : State} {f : Fault} (read : memRead a s = .next (w, s1)) (nonzero : w ≠ 0x0000)
      (emits : emitAll (unpack w) s1 = .fault f) : Scan unpack a s (.fault f)

end Sys2Proof.Machine
end

