-- ==== Sys2Proof/Certificates/Slice0/Obligations.lean ====
section
/-! DEFINITION. The statements for the provers. Each docstring names the rule of spec/ it formalises, or says that it
rests on a decision of the spec or of the model and names it. Opcode numbers, trap vectors, device addresses and flag
values stand as names of Config; `SampleWordsDecode` and `EveryWordDecodesToItsTableRow` rest on their numbers, and the
other statements at most on the numbers being distinct; they are the
numbers the spec supplies from general knowledge (log 3 to log 6). -/

open Sys2Proof
open Sys2Proof.Machine

/-! ### Encoding -/

/-- Decoding the word a well-formed instruction is encoded as gives the instruction back, with every operand at every
value. Rests on the opcode and vector numbers being distinct (log 3, log 4) and on the encoder's fill of ignored bits
(log 22). -/
def Obligations.DecodeEncodeRoundTrip : Prop :=
  ∀ i : Instr, i.wf = true → decode (encode i) = .ok i

/-- Decoding is total: every word decodes to a well-formed instruction, the one of the first row of the opcode table
whose fixed bits the word has (30_encoding.md section 3; the numbers of the rows are the spec's D1 and D2, log 3,
log 4). -/
def Obligations.EveryWordDecodesToItsTableRow : Prop :=
  ∀ w : Word, ∃ i : Instr, decode w = .ok i ∧ i.wf = true ∧ tableMnemonic w = some i.mnemonic

/-- Bits no field covers do not change what a word decodes to (30_encoding.md section 4; decision D23, log 22): flipping
any of them, `x` choosing which, leaves the instruction the same. -/
def Obligations.IgnoredBitsDoNotMatter : Prop :=
  ∀ w x : Word,
    ((opcodeOf w = Config.opcAdd ∨ opcodeOf w = Config.opcAnd) → w.getLsbD 5 = false →
      decode (w ^^^ (x &&& 0x0018)) = decode w) ∧
    (opcodeOf w = Config.opcNot → decode (w ^^^ (x &&& 0x003F)) = decode w) ∧
    (opcodeOf w = Config.opcJmp → decode (w ^^^ (x &&& 0x0E3F)) = decode w) ∧
    (opcodeOf w = Config.opcJsr → w.getLsbD 11 = false → decode (w ^^^ (x &&& 0x063F)) = decode w) ∧
    (opcodeOf w = Config.opcTrap → decode (w ^^^ (x &&& 0x0F00)) = decode w) ∧
    ((opcodeOf w = Config.opcRti ∨ opcodeOf w = Config.opcRes) → decode (w ^^^ (x &&& 0x0FFF)) = decode w)

/-- Example words of the spec's sections 41 to 46 decode to the instructions they are written for (numbers: D1, D2,
log 3, log 4). -/
def Obligations.SampleWordsDecode : Prop :=
  decode 0x0402 = .ok (.br 0b010 2) ∧ decode 0x123F = .ok (.addImm 1 0 0x1F) ∧
  decode 0x1401 = .ok (.addReg 2 0 1) ∧ decode 0x2802 = .ok (.ld 4 2) ∧ decode 0x3605 = .ok (.st 3 5) ∧
  decode 0x4FFE = .ok (.jsr 0x7FE) ∧ decode 0x41C0 = .ok (.jsrr 7) ∧ decode 0x63BF = .ok (.ldr 1 6 0x3F) ∧
  decode 0x7281 = .ok (.str 1 2 1) ∧ decode 0x923F = .ok (.notReg 1 0) ∧ decode 0xB005 = .ok (.sti 0 5) ∧
  decode 0xC1C0 = .ok (.jmp 7) ∧ decode 0xE1FF = .ok (.lea 0 0x1FF) ∧ decode 0xFF25 = .ok .trapHalt ∧
  decode 0xF000 = .ok (.trapOther 0) ∧ decode 0xD123 = .ok .res

/-- The dispatcher's default arm is unreachable, and what it would do: no word selects it; called with an opcode value
of 16 or more it stops the engine and surfaces the opcode and the word, and changes nothing else (decision D20, log 20;
60_exceptions.md section 1, vector S8). -/
def Obligations.BadOpcodeArmUnreachable : Prop :=
  (∀ (w : Word) (s : State), ∃ i, decode w = .ok i ∧ dispatch (opcodeOf w).toNat w s = exec i s) ∧
  ∀ (op : Nat) (w : Word) (s : State), 16 ≤ op → ∃ t, dispatch op w s = .next t ∧ t.run = .stopped ∧
    (∃ text, t.diag = some ⟨op, w, text⟩) ∧ SameRegs s t ∧ t.pc = s.pc ∧ t.cond = s.cond ∧ SameMemory s t ∧
    t.input = s.input ∧ SameSink s t

/-! ### The cycle -/

/-- A Running step fetches, decodes and runs exactly the decoded instruction, on the state whose `pc` is the incremented
PC; a wait for input holds the state as it was (log 24), every other outcome is the instruction's, and no instruction
is refused. Away from KBSR the word fetched is the word at `pc`. -/
def Obligations.StepRunsDecodedInstruction : Prop :=
  ∀ (s s1 : State) (w : Word) (i : Instr), s.run = .running → fetch s = .next (w, s1) → decode w = .ok i →
    (∀ t, exec i s1 = .next t → step s = .next t) ∧
    (exec i s1 = .fault .inputWait → step s = .next s) ∧
    (∀ f, f ≠ .inputWait → exec i s1 = .fault f → step s = .fault f) ∧
    (∀ r, exec i s1 ≠ .refused r) ∧
    (s.pc ≠ Config.kbsr → w = s.word s.pc ∧
      s1 = if s.pc.toNat < Config.maxAddress.toNat then s.setPc (s.pc + 1) else s)

/-- R111: the fetch reads the word at `pc` with a `MemRead`, then advances `pc` by one, but not from `MAX_ADDRESS` on;
nothing else changes after the read. At KBSR the poll runs first and the word fetched is the one it leaves. -/
def Obligations.FetchAdvancesAndSaturates : Prop :=
  ∀ s : State, s.readReady s.pc → ∃ w s1 t, memRead s.pc s = .next (w, s1) ∧ fetch s = .next (w, t) ∧
    (s.pc.toNat < Config.maxAddress.toNat → t.pc = s.pc + 1) ∧
    (Config.maxAddress.toNat ≤ s.pc.toNat → t.pc = s.pc) ∧
    SameRegs s1 t ∧ t.cond = s1.cond ∧ SameMemory s1 t ∧ SameOutside s1 t ∧
    (s.pc ≠ Config.kbsr → w = s.word s.pc ∧ s1 = s) ∧
    (s.pc = Config.kbsr → (w = 0x8000 ∨ w = 0x0000) ∧ s1.word Config.kbsr = w)

/-- Every cycle of a Running engine has one of the outcomes of the table of 40_cycle.md section 1, and no other: it
goes on (or waits) still Running; it stops by HALT with the notice in the sink; the sink, filled, rejects a character of
one of the five output routines; or a string of PUTS or PUTSP never ends. What a rejection leaves in the sink is 45_trap.md
R179 and 60_exceptions.md R207, under the spec's decision D18, in the model's form (log 18, log 36); the wait and the
loop without end are in the model's form too (log 24, log 31). -/
def Obligations.CycleOutcomesAreClosed : Prop :=
  ∀ s : State, s.run = .running →
    (∃ t, step s = .next t ∧ t.run = .running) ∨
    (∃ w s1 t, fetch s = .next (w, s1) ∧ decode w = .ok .trapHalt ∧ step s = .next t ∧ t.run = .stopped ∧
      t.sink = s1.sink ++ Config.haltNotice ∧ t.pc = s1.pc) ∨
    (∃ w s1 i left, fetch s = .next (w, s1) ∧ decode w = .ok i ∧
      i ∈ [Instr.trapOut, .trapPuts, .trapIn, .trapPutsp, .trapHalt] ∧ SinkFilled s1 left ∧
      step s = .fault (.fatalIO left)) ∨
    (∃ w s1 i, fetch s = .next (w, s1) ∧ decode w = .ok i ∧ i ∈ [Instr.trapPuts, .trapPutsp] ∧
      step s = .fault .noEnd)

/-- With a HALT word at `pc` a Running engine is Stopped after exactly one cycle, `pc` advanced by one, the notice in the
sink, all registers, the flags and memory unchanged, and it stays so. (At `pc = KBSR` the fetch polls and sees no stored
word, so that address is left out, as `FetchAdvancesAndSaturates` says.) -/
def Obligations.HaltEndsRunAfterOneCycle : Prop :=
  ∀ s : State, s.run = .running → s.pc ≠ Config.kbsr → decode (s.word s.pc) = .ok .trapHalt →
    s.sinkAccepts Config.haltNotice.length → ∃ t, step s = .next t ∧ t.run = .stopped ∧
      (s.pc.toNat < Config.maxAddress.toNat → t.pc = s.pc + 1) ∧ SameRegs s t ∧ t.cond = s.cond ∧ SameMemory s t ∧
      t.sink = s.sink ++ Config.haltNotice ∧ t.diag = s.diag ∧ t.input = s.input ∧
      ∀ n, Sys2Proof.core.run n t = .next t

/-- While Running the engine performs cycle after cycle: fetch, then dispatch on the word fetched. The run condition is
tested before the fetch: a Stopped engine performs no cycle, however often it is stepped. -/
def Obligations.RunConditionTestedBeforeFetch : Prop :=
  (∀ s : State, s.run = .running → ∀ w s1, fetch s = .next (w, s1) → ∀ t,
    dispatch (opcodeOf w).toNat w s1 = .next t → step s = .next t) ∧
  ∀ s : State, s.run = .stopped → ∀ n, Sys2Proof.core.run n s = .next s

/-! ### Flags and registers -/

/-- `setcc` sets exactly the flag of the register's two's-complement sign, clears the rest of the slot, and changes
nothing else. -/
def Obligations.FlagUpdateFollowsSign : Prop :=
  ∀ (i : Reg) (s : State),
    ((s.reg i).toInt = 0 → (setcc i s).cond = Config.flZro) ∧
    ((s.reg i).toInt < 0 → (setcc i s).cond = Config.flNeg) ∧
    (0 < (s.reg i).toInt → (setcc i s).cond = Config.flPos) ∧
    (∃ k : Fin 3, ∀ j : Nat, (setcc i s).cond.getLsbD j = decide (j = k.val)) ∧
    SameRegs s (setcc i s) ∧ (setcc i s).pc = s.pc ∧ SameMemory s (setcc i s) ∧ SameOutside s (setcc i s)

/-- Whatever instruction runs, `cond` changes only if it is one of the seven flag-writing ones, and then it is the
condition of the value in its destination; with no flag set no BR is taken. That GETC and IN leave `cond` alone is the
spec's decision D10 (log 11). -/
def Obligations.OnlySevenInstructionsWriteFlags : Prop :=
  (∀ (i : Instr) (s t : State), exec i s = .next t →
    (flagDest i = none → t.cond = s.cond) ∧ (∀ d, flagDest i = some d → t.cond = condOf (t.reg d))) ∧
  ∀ (cond : BitVec 3) (off : BitVec 9) (s : State), s.cond = 0x0000 → exec (.br cond off) s = .next s

/-- Whatever instruction runs, a register outside its Writes column (10_state.md section 1) keeps its value. That TRAP
does not write R7 is the spec's decision D9 (log 10). -/
def Obligations.OnlyListedRegistersWritten : Prop :=
  ∀ (i : Instr) (s t : State) (r : Reg), exec i s = .next t → r ∉ writesRegs i → t.reg r = s.reg r

/-- No instruction's effect depends on a register outside its Reads column (10_state.md section 1): changing such a
register before the instruction is the same as changing it after, or makes no difference where the instruction
overwrites it. JSRR lists its base as read, so that JSRR R7 does not depend on the old R7 is not said here but in
`SubroutineCallThroughRegister`. Rests on D9 and D22 for TRAP and JSRR (log 10, log 21). -/
def Obligations.UnreadRegistersDoNotMatter : Prop :=
  ∀ (i : Instr) (s : State) (r : Reg) (v : Word), r ∉ readsRegs i →
    (r ∈ writesRegs i → exec i (s.setReg r v) = exec i s) ∧
    (r ∉ writesRegs i → exec i (s.setReg r v) = andThen (exec i s) fun t => .next (t.setReg r v))

/-! ### Memory -/

/-- `MemWrite` stores the word at its address, at every address, and does nothing else. -/
def Obligations.MemWriteIsPlainStore : Prop :=
  ∀ (s : State) (a v : Word), WordStored a v s (s.memWrite a v)

/-- Away from KBSR, KBDR included, `MemRead` returns the word and changes nothing. -/
def Obligations.MemReadPlainAwayFromKbsr : Prop :=
  ∀ (s : State) (a : Word), a ≠ Config.kbsr → memRead a s = .next (s.word a, s)

/-- A `MemRead` of KBSR polls the host. No key: KBSR becomes and reads 0. A key: KBSR becomes and reads `0x8000`, KBDR
becomes the one character taken. A key announced but no character: the read waits. Nothing else changes. The word
written is the spec's decision D16 (log 16). -/
def Obligations.KbsrReadPolls : Prop :=
  ∀ s : State,
    (s.keyReady = false → ∃ t, memRead Config.kbsr s = .next (0x0000, t) ∧ t.input = s.input.keyAvailable.2 ∧
      t.word Config.kbsr = 0x0000 ∧ (∀ a, a ≠ Config.kbsr → t.word a = s.word a) ∧
      SameRegs s t ∧ t.pc = s.pc ∧ t.cond = s.cond ∧ t.run = s.run ∧ t.diag = s.diag ∧ SameSink s t) ∧
    (s.keyReady = true → ∀ c h, s.input.keyAvailable.2.readChar = some (c, h) →
      ∃ t, memRead Config.kbsr s = .next (0x8000, t) ∧ t.input = h ∧
        t.word Config.kbsr = 0x8000 ∧ t.word Config.kbdr = c ∧
        (∀ a, a ≠ Config.kbsr → a ≠ Config.kbdr → t.word a = s.word a) ∧
        SameRegs s t ∧ t.pc = s.pc ∧ t.cond = s.cond ∧ t.run = s.run ∧ t.diag = s.diag ∧ SameSink s t) ∧
    (s.keyReady = true → ¬ s.hasChar → memRead Config.kbsr s = .fault .inputWait)

/-- The canonical form of memory (log 1): every write inside the address space keeps it, and two memories in it that
read alike are equal. -/
def Obligations.MemoryFormIsCanonical : Prop :=
  (∀ (m : Memory) (a : Word) (v : Word), m.wf = true → (m.write a.toNat v).wf = true) ∧
  ∀ m n : Memory, m.wf = true → n.wf = true → (∀ a : Word, m.read a.toNat = n.read a.toNat) → m = n

/-- Every step keeps the invariant: memory in canonical form, `cond` empty or with exactly one flag and bits 15:3 zero
(10_state.md section 1). -/
def Obligations.StepKeepsInvariant : Prop :=
  ∀ s t : State, s.Inv → step s = .next t → t.Inv

/-- The reset state meets the invariant, whatever canonical memory `MEM_RESET` is. -/
def Obligations.ResetMeetsInvariant : Prop :=
  State.reset.Inv ∧ ∀ m : Memory, m.wf = true → (State.resetWith m).Inv

/-- No instruction but ST, STI and STR changes any word of memory other than the two device words, which a keyboard poll
rewrites (20_memory.md sections 1 and 5). -/
def Obligations.OnlyStoresAndPollsChangeMemory : Prop :=
  ∀ (i : Instr) (s t : State) (a : Word), exec i s = .next t →
    (∀ sr off, i ≠ .st sr off) → (∀ sr off, i ≠ .sti sr off) → (∀ sr base off, i ≠ .str sr base off) →
    a ≠ Config.kbsr → a ≠ Config.kbdr → t.word a = s.word a

/-- A store to the address of the next instruction is what the next fetch sees (20_memory.md section 5,
self-modifying code), away from KBSR, whose fetch polls. -/
def Obligations.StoredWordIsFetchedNext : Prop :=
  (∀ (sr : Reg) (off : BitVec 9) (s t : State), exec (.st sr off) s = .next t → pcRelative off s = s.pc →
    s.pc ≠ Config.kbsr → ∃ t', fetch t = .next (s.reg sr, t')) ∧
  (∀ (sr : Reg) (off : BitVec 9) (s s1 t : State), memRead (pcRelative off s) s = .next (s.pc, s1) →
    exec (.sti sr off) s = .next t → s.pc ≠ Config.kbsr → ∃ t', fetch t = .next (s.reg sr, t')) ∧
  ∀ (sr base : Reg) (off : BitVec 6) (s t : State), exec (.str sr base off) s = .next t →
    basePlusOffset base off s = s.pc → s.pc ≠ Config.kbsr → ∃ t', fetch t = .next (s.reg sr, t')

/-! ### Operate instructions. Each: which words are the instruction; its next state, for every operand and every state,
with everything it leaves unchanged (`ResultWritten`). -/

/-- R131: DR gets the sum of the two source registers modulo 2^16; no carry, no overflow. -/
def Obligations.AddRegisterMode : Prop :=
  (∀ w : Word, w.extractLsb' 12 4 = Config.opcAdd → w.getLsbD 5 = false →
    decode w = .ok (.addReg (w.extractLsb' 9 3).toFin (w.extractLsb' 6 3).toFin (w.extractLsb' 0 3).toFin)) ∧
  ∀ (dr sr1 sr2 : Reg) (s : State),
    ∃ t, exec (.addReg dr sr1 sr2) s = .next t ∧ ResultWritten dr (s.reg sr1 + s.reg sr2) s t

/-- R132: DR gets the sum of SR1 and the sign-extended 5-bit immediate modulo 2^16. -/
def Obligations.AddImmediateMode : Prop :=
  (∀ w : Word, w.extractLsb' 12 4 = Config.opcAdd → w.getLsbD 5 = true →
    decode w = .ok (.addImm (w.extractLsb' 9 3).toFin (w.extractLsb' 6 3).toFin (w.extractLsb' 0 5))) ∧
  ∀ (dr sr1 : Reg) (imm5 : BitVec 5) (s : State),
    ∃ t, exec (.addImm dr sr1 imm5) s = .next t ∧ ResultWritten dr (s.reg sr1 + imm5.signExtend 16) s t

/-- R133: DR gets the bitwise AND of the two source registers. -/
def Obligations.AndRegisterMode : Prop :=
  (∀ w : Word, w.extractLsb' 12 4 = Config.opcAnd → w.getLsbD 5 = false →
    decode w = .ok (.andReg (w.extractLsb' 9 3).toFin (w.extractLsb' 6 3).toFin (w.extractLsb' 0 3).toFin)) ∧
  ∀ (dr sr1 sr2 : Reg) (s : State),
    ∃ t, exec (.andReg dr sr1 sr2) s = .next t ∧ ResultWritten dr (s.reg sr1 &&& s.reg sr2) s t

/-- R134: DR gets the bitwise AND of SR1 and the sign-extended 5-bit immediate. -/
def Obligations.AndImmediateMode : Prop :=
  (∀ w : Word, w.extractLsb' 12 4 = Config.opcAnd → w.getLsbD 5 = true →
    decode w = .ok (.andImm (w.extractLsb' 9 3).toFin (w.extractLsb' 6 3).toFin (w.extractLsb' 0 5))) ∧
  ∀ (dr sr1 : Reg) (imm5 : BitVec 5) (s : State),
    ∃ t, exec (.andImm dr sr1 imm5) s = .next t ∧ ResultWritten dr (s.reg sr1 &&& imm5.signExtend 16) s t

/-- R135: DR gets the bitwise complement of SR. -/
def Obligations.NotComplementsSource : Prop :=
  (∀ w : Word, w.extractLsb' 12 4 = Config.opcNot →
    decode w = .ok (.notReg (w.extractLsb' 9 3).toFin (w.extractLsb' 6 3).toFin)) ∧
  ∀ (dr sr : Reg) (s : State),
    ∃ t, exec (.notReg dr sr) s = .next t ∧ ResultWritten dr (~~~ s.reg sr) s t

/-! ### Control instructions -/

/-- R141: taken exactly when some bit `k` of the 3-bit mask and bit `k` of `cond` are both 1; the target is from the
incremented PC and wraps. -/
def Obligations.BranchOnCondition : Prop :=
  (∀ w : Word, w.extractLsb' 12 4 = Config.opcBr →
    decode w = .ok (.br (w.extractLsb' 9 3) (w.extractLsb' 0 9))) ∧
  ∀ (cond : BitVec 3) (off : BitVec 9) (s : State), ∃ t, exec (.br cond off) s = .next t ∧ OnlyPcMoved s t ∧
    ((∃ k, k < 3 ∧ cond.getLsbD k = true ∧ s.cond.getLsbD k = true) → t.pc = s.pc + off.signExtend 16) ∧
    (¬ (∃ k, k < 3 ∧ cond.getLsbD k = true ∧ s.cond.getLsbD k = true) → t.pc = s.pc)

/-- R142: `pc` gets the base register; RET is the form through R7. -/
def Obligations.JumpThroughRegister : Prop :=
  (∀ w : Word, w.extractLsb' 12 4 = Config.opcJmp → decode w = .ok (.jmp (w.extractLsb' 6 3).toFin)) ∧
  ∀ (base : Reg) (s : State), ∃ t, exec (.jmp base) s = .next t ∧ OnlyPcMoved s t ∧ t.pc = s.reg base

/-- R143: R7 gets the incremented PC, `pc` gets it plus the sign-extended 11-bit offset, wrapping. -/
def Obligations.SubroutineCallRelative : Prop :=
  (∀ w : Word, w.extractLsb' 12 4 = Config.opcJsr → w.getLsbD 11 = true →
    decode w = .ok (.jsr (w.extractLsb' 0 11))) ∧
  ∀ (off : BitVec 11) (s : State), ∃ t, exec (.jsr off) s = .next t ∧
    t.reg 7 = s.pc ∧ t.pc = s.pc + off.signExtend 16 ∧
    (∀ r : Reg, r ≠ 7 → t.reg r = s.reg r) ∧ t.cond = s.cond ∧ SameMemory s t ∧ SameOutside s t

/-- R144: R7 is written first and the base is read after, so JSRR R7 falls through; the order is the spec's decision
D22 (log 21). -/
def Obligations.SubroutineCallThroughRegister : Prop :=
  (∀ w : Word, w.extractLsb' 12 4 = Config.opcJsr → w.getLsbD 11 = false →
    decode w = .ok (.jsrr (w.extractLsb' 6 3).toFin)) ∧
  ∀ (base : Reg) (s : State), ∃ t, exec (.jsrr base) s = .next t ∧
    t.reg 7 = s.pc ∧ (base ≠ 7 → t.pc = s.reg base) ∧ (base = 7 → t.pc = s.pc) ∧
    (∀ r : Reg, r ≠ 7 → t.reg r = s.reg r) ∧ t.cond = s.cond ∧ SameMemory s t ∧ SameOutside s t

/-! ### Loads. A load runs on from the state its read leaves: the same state, unless the address is KBSR. -/

/-- R150: for every state in which the read does not wait, the word read is written and the flags set from it; at KBSR
the read polls. (Where it waits: `LoadsWaitWithTheirRead`.) -/
def Obligations.LoadPcRelative : Prop :=
  (∀ w : Word, w.extractLsb' 12 4 = Config.opcLd →
    decode w = .ok (.ld (w.extractLsb' 9 3).toFin (w.extractLsb' 0 9))) ∧
  ∀ (dr : Reg) (off : BitVec 9) (s : State) (ea : Word), ea = s.pc + off.signExtend 16 →
    s.readReady ea → ∃ v s1 t, memRead ea s = .next (v, s1) ∧ exec (.ld dr off) s = .next t ∧
      ResultWritten dr v s1 t ∧ (ea ≠ Config.kbsr → v = s.word ea ∧ s1 = s) ∧
      (ea = Config.kbsr → v = 0x8000 ∨ v = 0x0000)

/-- R151: two reads in this order, pointer then data, both with the poll at KBSR; the flags are those of the data. That a
read of KBSR answers `0x8000` or `0x0000` rests on the spec's decision D16 (log 16). -/
def Obligations.LoadIndirect : Prop :=
  (∀ w : Word, w.extractLsb' 12 4 = Config.opcLdi →
    decode w = .ok (.ldi (w.extractLsb' 9 3).toFin (w.extractLsb' 0 9))) ∧
  ∀ (dr : Reg) (off : BitVec 9) (s : State) (pa : Word), pa = s.pc + off.signExtend 16 →
    s.readReady pa → ∃ ptr s1, memRead pa s = .next (ptr, s1) ∧
      (pa ≠ Config.kbsr → ptr = s.word pa ∧ s1 = s) ∧ (pa = Config.kbsr → ptr = 0x8000 ∨ ptr = 0x0000) ∧
      (s1.readReady ptr → ∃ v s2 t, memRead ptr s1 = .next (v, s2) ∧ exec (.ldi dr off) s = .next t ∧
        ResultWritten dr v s2 t ∧ (ptr ≠ Config.kbsr → v = s1.word ptr ∧ s2 = s1) ∧
        (ptr = Config.kbsr → v = 0x8000 ∨ v = 0x0000))

/-- R152: the base is read before `DR` is written; `pc` is not used. That a read of KBSR answers `0x8000` or `0x0000`
rests on the spec's decision D16 (log 16). -/
def Obligations.LoadBaseOffset : Prop :=
  (∀ w : Word, w.extractLsb' 12 4 = Config.opcLdr →
    decode w = .ok (.ldr (w.extractLsb' 9 3).toFin (w.extractLsb' 6 3).toFin (w.extractLsb' 0 6))) ∧
  ∀ (dr base : Reg) (off : BitVec 6) (s : State) (ea : Word), ea = s.reg base + off.signExtend 16 →
    s.readReady ea → ∃ v s1 t, memRead ea s = .next (v, s1) ∧ exec (.ldr dr base off) s = .next t ∧
      ResultWritten dr v s1 t ∧ (ea ≠ Config.kbsr → v = s.word ea ∧ s1 = s) ∧
      (ea = Config.kbsr → v = 0x8000 ∨ v = 0x0000)

/-- R153: the address itself, with no memory access, so no poll at KBSR; the flags are set from the address. -/
def Obligations.LoadEffectiveAddress : Prop :=
  (∀ w : Word, w.extractLsb' 12 4 = Config.opcLea →
    decode w = .ok (.lea (w.extractLsb' 9 3).toFin (w.extractLsb' 0 9))) ∧
  ∀ (dr : Reg) (off : BitVec 9) (s : State),
    ∃ t, exec (.lea dr off) s = .next t ∧ ResultWritten dr (s.pc + off.signExtend 16) s t

/-! ### Stores -/

/-- R160: a plain store at every address, the device words included. -/
def Obligations.StorePcRelative : Prop :=
  (∀ w : Word, w.extractLsb' 12 4 = Config.opcSt →
    decode w = .ok (.st (w.extractLsb' 9 3).toFin (w.extractLsb' 0 9))) ∧
  ∀ (sr : Reg) (off : BitVec 9) (s : State),
    ∃ t, exec (.st sr off) s = .next t ∧ WordStored (s.pc + off.signExtend 16) (s.reg sr) s t

/-- R161: the pointer is read, with the poll at KBSR, before the store. -/
def Obligations.StoreIndirect : Prop :=
  (∀ w : Word, w.extractLsb' 12 4 = Config.opcSti →
    decode w = .ok (.sti (w.extractLsb' 9 3).toFin (w.extractLsb' 0 9))) ∧
  ∀ (sr : Reg) (off : BitVec 9) (s : State) (pa : Word), pa = s.pc + off.signExtend 16 →
    s.readReady pa → ∃ ptr s1 t, memRead pa s = .next (ptr, s1) ∧ exec (.sti sr off) s = .next t ∧
      WordStored ptr (s.reg sr) s1 t ∧ (pa ≠ Config.kbsr → ptr = s.word pa ∧ s1 = s) ∧
      (pa = Config.kbsr → ptr = 0x8000 ∨ ptr = 0x0000)

/-- R162: the address is the base register plus the sign-extended 6-bit offset, wrapping; the base keeps its value. -/
def Obligations.StoreBaseOffset : Prop :=
  (∀ w : Word, w.extractLsb' 12 4 = Config.opcStr →
    decode w = .ok (.str (w.extractLsb' 9 3).toFin (w.extractLsb' 6 3).toFin (w.extractLsb' 0 6))) ∧
  ∀ (sr base : Reg) (off : BitVec 6) (s : State),
    ∃ t, exec (.str sr base off) s = .next t ∧ WordStored (s.reg base + off.signExtend 16) (s.reg sr) s t

/-- LD, LDR, LDI and STI wait exactly when one of their reads does: the read is of KBSR, the host says a key is there
and does not deliver it (70_reset_and_hazards.md section 3). The fault that names the wait is the model's, turned into a
held state by the step (log 24). -/
def Obligations.LoadsWaitWithTheirRead : Prop :=
  (∀ (dr : Reg) (off : BitVec 9) (s : State),
    exec (.ld dr off) s = .fault .inputWait ↔ ¬ s.readReady (s.pc + off.signExtend 16)) ∧
  (∀ (dr base : Reg) (off : BitVec 6) (s : State),
    exec (.ldr dr base off) s = .fault .inputWait ↔ ¬ s.readReady (s.reg base + off.signExtend 16)) ∧
  (∀ (sr : Reg) (off : BitVec 9) (s : State),
    exec (.sti sr off) s = .fault .inputWait ↔ ¬ s.readReady (s.pc + off.signExtend 16)) ∧
  ∀ (dr : Reg) (off : BitVec 9) (s : State),
    exec (.ldi dr off) s = .fault .inputWait ↔
      (¬ s.readReady (s.pc + off.signExtend 16) ∨
        ∃ ptr s1, memRead (s.pc + off.signExtend 16) s = .next (ptr, s1) ∧ ¬ s1.readReady ptr)

/-! ### No-operation opcodes and TRAP -/

/-- R190, R191: recognised, and nothing changes after the fetch. -/
def Obligations.RtiAndResDoNothing : Prop :=
  (∀ w : Word, w.extractLsb' 12 4 = Config.opcRti → decode w = .ok .rti) ∧
  (∀ w : Word, w.extractLsb' 12 4 = Config.opcRes → decode w = .ok .res) ∧
  ∀ s : State, exec .rti s = .next s ∧ exec .res s = .next s

/-- GETC: the host's character, all 16 bits, into R0 and nothing else; with no character it waits. The width, the flags
and R7 are the spec's decisions D27, D10, D9 (log 25, log 11, log 10). -/
def Obligations.GetcReadsOneCharacter : Prop :=
  (∀ w : Word, w.extractLsb' 12 4 = Config.opcTrap → w.extractLsb' 0 8 = Config.tvGetc → decode w = .ok .trapGetc) ∧
  ∀ s : State,
    (∀ c h, s.input.readChar = some (c, h) → ∃ t, exec .trapGetc s = .next t ∧ t.reg 0 = c ∧ t.input = h ∧
      (∀ r : Reg, r ≠ 0 → t.reg r = s.reg r) ∧ t.pc = s.pc ∧ t.cond = s.cond ∧ SameMemory s t ∧ t.run = s.run ∧
      t.diag = s.diag ∧ SameSink s t) ∧
    (¬ s.hasChar → exec .trapGetc s = .fault .inputWait)

/-- OUT: the low byte of R0 to the sink and nothing else, or `FatalIO`, input and sink as they were.
Rests on D12 and D18 (log 13, log 18, log 36). -/
def Obligations.OutEmitsLowByte : Prop :=
  (∀ w : Word, w.extractLsb' 12 4 = Config.opcTrap → w.extractLsb' 0 8 = Config.tvOut → decode w = .ok .trapOut) ∧
  ∀ s : State,
    (s.sinkAccepts 1 → ∃ t, exec .trapOut s = .next t ∧ Emitted [(s.reg 0).extractLsb' 0 8] s t) ∧
    (¬ s.sinkAccepts 1 → exec .trapOut s = .fault (.fatalIO { input := s.input, sink := s.sink }))

/-- PUTS: a string of `n` non-zero words from R0 on, up to a zero word, is written, one low byte for each word, the
address wrapping, and nothing else changes; a string that runs into KBSR when no key is there ends there, KBSR left 0; a
sink with room for `m < n` characters only ends it with `FatalIO`, the first `m` in the sink (R174, R179). (Every other
way a string can go is in `StringLoopIsExact`.) Rests on D12, D13 and D18 (log 13, log 14, log 18, log 36). -/
def Obligations.PutsWritesString : Prop :=
  (∀ w : Word, w.extractLsb' 12 4 = Config.opcTrap → w.extractLsb' 0 8 = Config.tvPuts → decode w = .ok .trapPuts) ∧
  ∀ (s : State) (n : Nat), (∀ k, k < n → s.word (s.reg 0 + BitVec.ofNat 16 k) ≠ 0x0000) →
    (∀ k, k < n → s.reg 0 + BitVec.ofNat 16 k ≠ Config.kbsr) →
    (∀ m, s.sinkRoom = some m → m < n → exec .trapPuts s = .fault (.fatalIO { input := s.input, sink := s.sink ++
      ((List.range m).map fun k => (s.word (s.reg 0 + BitVec.ofNat 16 k)).extractLsb' 0 8) })) ∧
    (s.sinkAccepts n → s.reg 0 + BitVec.ofNat 16 n ≠ Config.kbsr → s.word (s.reg 0 + BitVec.ofNat 16 n) = 0x0000 →
      ∃ t, exec .trapPuts s = .next t ∧
        Emitted ((List.range n).map fun k => (s.word (s.reg 0 + BitVec.ofNat 16 k)).extractLsb' 0 8) s t) ∧
    (s.sinkAccepts n → s.reg 0 + BitVec.ofNat 16 n = Config.kbsr → s.keyReady = false →
      ∃ t, exec .trapPuts s = .next t ∧
        t.sink = s.sink ++ ((List.range n).map fun k => (s.word (s.reg 0 + BitVec.ofNat 16 k)).extractLsb' 0 8) ∧
        t.word Config.kbsr = 0x0000 ∧ (∀ a, a ≠ Config.kbsr → t.word a = s.word a) ∧
        t.input = s.input.keyAvailable.2 ∧ SameRegs s t ∧ t.pc = s.pc ∧ t.cond = s.cond ∧ t.run = s.run ∧
        t.diag = s.diag)

/-- IN: prompt, read, echo of the low byte, all 16 bits into R0, in this order. A rejected prompt is `FatalIO`, the part
that had room in the sink and nothing read; a rejected echo is `FatalIO`, the prompt in the sink and the character
consumed; with no character it waits after the prompt. Rests on D12, D14, D27, D10, D9 and D18 (log 13, log 15,
log 25, log 11, log 10, log 18, log 36; the wait: log 24). -/
def Obligations.InPromptsReadsAndEchoes : Prop :=
  (∀ w : Word, w.extractLsb' 12 4 = Config.opcTrap → w.extractLsb' 0 8 = Config.tvIn → decode w = .ok .trapIn) ∧
  ∀ s : State,
    (∀ n, s.sinkRoom = some n → n < Config.inPrompt.length →
      exec .trapIn s = .fault (.fatalIO { input := s.input, sink := s.sink ++ Config.inPrompt.take n })) ∧
    (s.sinkAccepts Config.inPrompt.length → ¬ s.hasChar → exec .trapIn s = .fault .inputWait) ∧
    (∀ c h, s.input.readChar = some (c, h) → s.sinkAccepts Config.inPrompt.length →
      ¬ s.sinkAccepts (Config.inPrompt.length + 1) →
      exec .trapIn s = .fault (.fatalIO { input := h, sink := s.sink ++ Config.inPrompt })) ∧
    (∀ c h, s.input.readChar = some (c, h) → s.sinkAccepts (Config.inPrompt.length + 1) →
      ∃ t, exec .trapIn s = .next t ∧ t.reg 0 = c ∧ t.input = h ∧
        t.sink = s.sink ++ Config.inPrompt ++ [c.extractLsb' 0 8] ∧ (∀ r : Reg, r ≠ 0 → t.reg r = s.reg r) ∧
        t.pc = s.pc ∧ t.cond = s.cond ∧ SameMemory s t ∧ t.run = s.run ∧ t.diag = s.diag)

/-- PUTSP: as PUTS, with the low byte of each word always and its high byte if it is not zero; a sink with room for too
few characters keeps those it has room for, a low byte whose high byte is rejected among them. Rests on D12, D13,
D32 and D18 (log 13, log 14, log 29, log 18, log 36). -/
def Obligations.PutspWritesPackedString : Prop :=
  (∀ w : Word, w.extractLsb' 12 4 = Config.opcTrap → w.extractLsb' 0 8 = Config.tvPutsp → decode w = .ok .trapPutsp) ∧
  ∀ (s : State) (n : Nat) (cs : List Byte), (∀ k, k < n → s.word (s.reg 0 + BitVec.ofNat 16 k) ≠ 0x0000) →
    (∀ k, k < n → s.reg 0 + BitVec.ofNat 16 k ≠ Config.kbsr) →
    cs = ((List.range n).flatMap fun k =>
      let w := s.word (s.reg 0 + BitVec.ofNat 16 k)
      if w.extractLsb' 8 8 = 0x00 then [w.extractLsb' 0 8] else [w.extractLsb' 0 8, w.extractLsb' 8 8]) →
    (∀ m, s.sinkRoom = some m → m < cs.length →
      exec .trapPutsp s = .fault (.fatalIO { input := s.input, sink := s.sink ++ cs.take m })) ∧
    (s.sinkAccepts cs.length → s.reg 0 + BitVec.ofNat 16 n ≠ Config.kbsr → s.word (s.reg 0 + BitVec.ofNat 16 n) = 0x0000 →
      ∃ t, exec .trapPutsp s = .next t ∧ Emitted cs s t) ∧
    (s.sinkAccepts cs.length → s.reg 0 + BitVec.ofNat 16 n = Config.kbsr → s.keyReady = false →
      ∃ t, exec .trapPutsp s = .next t ∧ t.sink = s.sink ++ cs ∧
        t.word Config.kbsr = 0x0000 ∧ (∀ a, a ≠ Config.kbsr → t.word a = s.word a) ∧
        t.input = s.input.keyAvailable.2 ∧ SameRegs s t ∧ t.pc = s.pc ∧ t.cond = s.cond ∧ t.run = s.run ∧
        t.diag = s.diag)

/-- HALT: the notice, then Stopped, and nothing else; a rejected notice is `FatalIO` and not a stop, the part of it
that had room in the sink. Rests on D15, D34 and D18 (log 15, log 30, log 18, log 36). -/
def Obligations.HaltNoticeThenStops : Prop :=
  (∀ w : Word, w.extractLsb' 12 4 = Config.opcTrap → w.extractLsb' 0 8 = Config.tvHalt → decode w = .ok .trapHalt) ∧
  ∀ s : State,
    (s.sinkAccepts Config.haltNotice.length → ∃ t, exec .trapHalt s = .next t ∧ t.run = .stopped ∧
      t.sink = s.sink ++ Config.haltNotice ∧ SameRegs s t ∧ t.pc = s.pc ∧ t.cond = s.cond ∧ SameMemory s t ∧
      t.diag = s.diag ∧ t.input = s.input) ∧
    (∀ n, s.sinkRoom = some n → n < Config.haltNotice.length →
      exec .trapHalt s = .fault (.fatalIO { input := s.input, sink := s.sink ++ Config.haltNotice.take n }))

/-- A TRAP with a vector that is none of the six does nothing after the fetch: the spec's decision D11 (log 12). -/
def Obligations.UnlistedTrapDoesNothing : Prop :=
  (∀ w : Word, w.extractLsb' 12 4 = Config.opcTrap → w.extractLsb' 0 8 ∉ namedVectors →
    decode w = .ok (.trapOther (w.extractLsb' 0 8))) ∧
  ∀ (v : Byte) (s : State), exec (.trapOther v) s = .next s

/-- PUTS and PUTSP compute exactly the unbounded loop of 45_trap.md: whatever outcome that loop has, the instruction has
it, KBSR polls, waits and sink failures included; and the fault `noEnd` is raised exactly when the loop has no outcome,
so the model's bound on the loop (log 31) is never felt. The loop is the spec's under its decisions D12, D13, D32 and D18
(log 13, log 14, log 29, log 18, log 36); a wait is named by the model's fault (log 24). -/
def Obligations.StringLoopIsExact : Prop :=
  ∀ s : State,
    (∀ o, Scan unpackOne (s.reg 0) s o → exec .trapPuts s = o) ∧
    ((∀ o, ¬ Scan unpackOne (s.reg 0) s o) ↔ exec .trapPuts s = .fault .noEnd) ∧
    (∀ o, Scan unpackTwo (s.reg 0) s o → exec .trapPutsp s = o) ∧
    ((∀ o, ¬ Scan unpackTwo (s.reg 0) s o) ↔ exec .trapPutsp s = .fault .noEnd)

/-- No TRAP changes `pc`, R7, the flags or any register but R0, and only GETC and IN change R0. Rests on D9 and D10
(log 10, log 11). -/
def Obligations.TrapsLeavePcLinkAndFlags : Prop :=
  ∀ (i : Instr) (s t : State),
    (i ∈ [Instr.trapGetc, .trapOut, .trapPuts, .trapIn, .trapPutsp, .trapHalt] ∨ ∃ v, i = .trapOther v) →
    exec i s = .next t → t.pc = s.pc ∧ t.cond = s.cond ∧ (∀ r : Reg, r ≠ 0 → t.reg r = s.reg r) ∧
      (i ≠ .trapGetc → i ≠ .trapIn → t.reg 0 = s.reg 0)

/-! ### Output -/

/-- The sink is append-only: whatever a step does, the old content stays in front, and the room left is the old room
less what was appended (10_state.md section 4; the room is the model's, log 18). -/
def Obligations.SinkOnlyGrows : Prop :=
  ∀ s t : State, step s = .next t →
    ∃ cs, t.sink = s.sink ++ cs ∧ s.sinkAccepts cs.length ∧ t.sinkRoom = s.sinkRoom.map (· - cs.length)

/-- Emitting a sequence is emitting its characters one after the other, and the first that is rejected ends it with
`FatalIO`, what was emitted before it in the sink (10_state.md section 4, 45_trap.md; log 18, log 36). -/
def Obligations.EmitOneAfterTheOther : Prop :=
  ∀ s : State, emitAll [] s = .next s ∧
    (∀ c cs, emitAll (c :: cs) s = andThen (emit c s) fun t => emitAll cs t) ∧
    (∀ c, s.sinkRoom = some 0 → emit c s = .fault (.fatalIO { input := s.input, sink := s.sink })) ∧
    (∀ c, s.sinkRoom ≠ some 0 → ∃ t, emit c s = .next t ∧ Emitted [c] s t)

/-- Whenever an instruction ends in `FatalIO`, it is one of the five output routines; all that was in the sink stays
there, followed by exactly as many characters as the sink still accepted; OUT and HALT take nothing from the host, and
IN takes nothing or the one character whose echo failed. A step that ends so has filled the sink in the same way
(45_trap.md R174 to R179, 60_exceptions.md R207; the spec's decision D18, log 18, log 36). -/
def Obligations.FatalIOKeepsWhatWasEmitted : Prop :=
  (∀ (i : Instr) (s : State) (left : HostSide), exec i s = .fault (.fatalIO left) →
    i ∈ [Instr.trapOut, .trapPuts, .trapIn, .trapPutsp, .trapHalt] ∧ SinkFilled s left ∧
    (i = .trapOut ∨ i = .trapHalt → left.input = s.input) ∧
    (i = .trapIn → left.input = s.input ∨ ∃ c, s.input.readChar = some (c, left.input))) ∧
  ∀ (s : State) (left : HostSide), step s = .fault (.fatalIO left) → SinkFilled s left

/-! ### Sign extension -/

/-- R88, on every 16-bit `x` and every width from 1 to 16. -/
def Obligations.SignExtendProperty : Prop :=
  ∀ (x : Word) (n : Nat), 1 ≤ n → n ≤ 16 →
    (x.getLsbD (n - 1) = false → signExtend n x = x) ∧
    (x.getLsbD (n - 1) = true → (∀ j, n ≤ j → j < 16 → (signExtend n x).getLsbD j = true) ∧
      ∀ j, j < n → (signExtend n x).getLsbD j = x.getLsbD j)

/-- Extending a field of any width from 1 to 16 keeps its signed value, so each immediate and offset has the range
30_encoding.md section 2 gives it: an N-bit field goes from -2^(N-1) to 2^(N-1)-1. -/
def Obligations.FieldsKeepSignedValue : Prop :=
  ∀ (n : Nat) (f : BitVec n), 1 ≤ n → n ≤ 16 →
    (sext f).toInt = f.toInt ∧ -(2 ^ (n - 1) : Int) ≤ (sext f).toInt ∧ (sext f).toInt < (2 ^ (n - 1) : Int)

/-! ### Waiting for input -/

/-- A cycle that waits for input is not performed: the state is held as it is, for as many steps as the host delivers
nothing, and the run has not ended. A fetch at KBSR, GETC, and IN after a prompt the sink takes (70_reset_and_hazards.md
section 3; the held state is the model's reading, log 24). -/
def Obligations.WaitingCycleIsHeld : Prop :=
  ∀ s : State, s.run = .running → ¬ s.hasChar →
    ((s.pc = Config.kbsr ∧ s.keyReady = true) ∨
      (s.pc ≠ Config.kbsr ∧ decode (s.word s.pc) = .ok .trapGetc) ∨
      (s.pc ≠ Config.kbsr ∧ decode (s.word s.pc) = .ok .trapIn ∧ s.sinkAccepts Config.inPrompt.length)) →
    ∀ n, Sys2Proof.core.run n s = .next s

/-- A character the host delivers to a waiting GETC ends the wait: the next step puts it in R0, takes nothing else from
the host, and goes on (10_state.md section 4; log 24, log 37). -/
def Obligations.DeliveredCharacterEndsWait : Prop :=
  ∀ (s : State) (c : Word), s.run = .running → ¬ s.hasChar → s.pc ≠ Config.kbsr →
    decode (s.word s.pc) = .ok .trapGetc →
    ∃ t, step (deliver c s) = .next t ∧ t.reg 0 = c ∧ t.input = s.input ∧ t.run = .running ∧
      (s.pc.toNat < Config.maxAddress.toNat → t.pc = s.pc + 1) ∧ (∀ r : Reg, r ≠ 0 → t.reg r = s.reg r) ∧
      t.cond = s.cond ∧ SameMemory s t

/-! ### Reset and the host's requests -/

/-- After reset every register, `pc` and `cond` are zero, the engine is Stopped, and every word of memory, the device
words included, is what `MEM_RESET` gives; the host's input and the sink stay. Reset is taken only while Stopped
(10_state.md section 5; D8 and D29, log 2, log 26). -/
def Obligations.ResetGivesStatedValues : Prop :=
  (∀ r : Reg, State.reset.reg r = 0x0000) ∧ State.reset.pc = 0x0000 ∧ State.reset.cond = 0x0000 ∧
  State.reset.run = .stopped ∧
  ∀ (m : Memory) (s : State),
    (s.run = .stopped → ∃ t, requestReset m s = .next t ∧ (∀ r : Reg, t.reg r = 0x0000) ∧ t.pc = 0x0000 ∧
      t.cond = 0x0000 ∧ t.run = .stopped ∧ (∀ a : Word, t.word a = m.read a.toNat) ∧ t.diag = none ∧
      t.input = s.input ∧ SameSink s t) ∧
    (s.run = .running → requestReset m s = .refused .notStopped)

/-- `run` takes a Stopped engine to Running and changes nothing else; test access sets one slot or one word by a plain
store and reads with no side effect, KBSR included; none of them, nor the image loader, is available while Running
(10_state.md section 4; D7, D30, D33, log 9, log 27, log 34). -/
def Obligations.HostRequestsWhileStopped : Prop :=
  (∀ s : State, s.run = .stopped →
    (∃ t, requestRun s = .next t ∧ t.run = .running ∧ SameRegs s t ∧ t.pc = s.pc ∧ t.cond = s.cond ∧
      SameMemory s t ∧ t.diag = s.diag ∧ t.input = s.input ∧ SameSink s t) ∧
    (∀ i v, ∃ t, testSetReg i v s = .next t ∧ t.reg i = v ∧ (∀ r : Reg, r ≠ i → t.reg r = s.reg r) ∧
      t.pc = s.pc ∧ t.cond = s.cond ∧ SameMemory s t ∧ SameOutside s t) ∧
    (∀ v, ∃ t, testSetPc v s = .next t ∧ t.pc = v ∧ OnlyPcMoved s t) ∧
    (∀ v, ∃ t, testSetCond v s = .next t ∧ t.cond = v ∧ SameRegs s t ∧ t.pc = s.pc ∧ SameMemory s t ∧
      SameOutside s t) ∧
    (∀ a v, ∃ t, testSetWord a v s = .next t ∧ WordStored a v s t) ∧
    (∀ i, testReadReg i s = .next (s.reg i)) ∧ testReadPc s = .next s.pc ∧ testReadCond s = .next s.cond ∧
    (∀ a, testReadWord a s = .next (s.word a))) ∧
  ∀ s : State, s.run = .running → requestRun s = .refused .notStopped ∧
    (∀ i v, testSetReg i v s = .refused .notStopped) ∧ (∀ v, testSetPc v s = .refused .notStopped) ∧
    (∀ v, testSetCond v s = .refused .notStopped) ∧ (∀ a v, testSetWord a v s = .refused .notStopped) ∧
    (∀ i, testReadReg i s = .refused .notStopped) ∧ testReadPc s = .refused .notStopped ∧
    testReadCond s = .refused .notStopped ∧ (∀ a, testReadWord a s = .refused .notStopped) ∧
    ∀ bytes, loadImage bytes s = .refused .notStopped

/-- R60: the image of origin `o` and words `ws`, its bytes big-endian, places word `k` at `o + k` modulo 65536 (where
an image wraps onto itself the later word stays), leaves every other word untouched and writes no register; the loader
is available while Stopped. -/
def Obligations.LoadImagePlacesWords : Prop :=
  ∀ (o : Word) (ws : List Word) (s : State) (bytes : List Byte),
    bytes = ((o :: ws).flatMap fun w => [w.extractLsb' 8 8, w.extractLsb' 0 8]) →
    s.run = .stopped → ∃ t, loadImage bytes s = .next t ∧
      (∀ k w, ws[k]? = some w → (∀ j, k < j → j < ws.length → o + BitVec.ofNat 16 j ≠ o + BitVec.ofNat 16 k) →
        t.word (o + BitVec.ofNat 16 k) = w) ∧
      (∀ a : Word, (∀ k, k < ws.length → o + BitVec.ofNat 16 k ≠ a) → t.word a = s.word a) ∧
      SameRegs s t ∧ t.pc = s.pc ∧ t.cond = s.cond ∧ SameOutside s t

/-- A byte sequence is a program image exactly when its length is even and at least 2; any other is refused
(decision D19, log 19). -/
def Obligations.OnlyEvenImagesLoad : Prop :=
  ∀ (bytes : List Byte) (s : State), s.run = .stopped →
    ((bytes.length % 2 = 0 ∧ 2 ≤ bytes.length) → ∃ t, loadImage bytes s = .next t) ∧
    (¬ (bytes.length % 2 = 0 ∧ 2 ≤ bytes.length) → loadImage bytes s = .refused .badImage)
end

