-- ==== Sys2Proof/Laws/Encoding.lean ====
section
/-! SUPPORT. How the fields of a packed word read back, one lemma for each format of spec/30_encoding.md R81: the facts
from which decoding an encoded instruction is computed. -/

namespace Sys2Proof

section
variable {a b n : Nat}

theorem extractLsb'_pack (x : BitVec n) (h : n = 16) (lo k : Nat) :
    (pack x h).extractLsb' lo k = x.extractLsb' lo k := by
  subst h
  rfl

/-- A field above the low part of an append comes from the high part. -/
theorem extractLsb'_append_high (x : BitVec a) (y : BitVec b) (lo k : Nat) (h : b ≤ lo) :
    (x ++ y).extractLsb' lo k = x.extractLsb' (lo - b) k := by
  apply BitVec.eq_of_getLsbD_eq
  intro i hi
  simp only [BitVec.getLsbD_extractLsb', BitVec.getLsbD_append, hi, decide_true, Bool.true_and]
  rw [if_neg (by omega), Nat.sub_add_comm h]

/-- The low part of an append. -/
theorem extractLsb'_append_low (x : BitVec a) (y : BitVec b) : (x ++ y).extractLsb' 0 b = y := by
  apply BitVec.eq_of_getLsbD_eq
  intro i hi
  simp [BitVec.getLsbD_append, hi]

theorem extractLsb'_all (x : BitVec n) : x.extractLsb' 0 n = x := by
  apply BitVec.eq_of_getLsbD_eq
  intro i hi
  simp [hi]

/-- One bit as a field of one bit. -/
theorem getLsbD_eq_extractLsb' (w : Word) (k : Nat) : w.getLsbD k = (w.extractLsb' k 1).getLsbD 0 := by
  simp

end

/-! ### The formats -/

section
variable (op : BitVec 4)

/-- Formats BR and PCR: three bits, then nine. -/
theorem fields_3_9 (x : BitVec 3) (y : BitVec 9) :
    opcodeOf (pack (op ++ x ++ y)) = op ∧ condField (pack (op ++ x ++ y)) = x ∧
      regField (pack (op ++ x ++ y)) 9 = x.toFin ∧ pcOffset9Field (pack (op ++ x ++ y)) = y := by
  have hop : (pack (op ++ x ++ y)).extractLsb' 12 4 = op := by
    rw [extractLsb'_pack, extractLsb'_append_high _ _ _ _ (by decide), extractLsb'_append_high _ _ _ _ (by decide)]
    exact extractLsb'_all op
  have hx : (pack (op ++ x ++ y)).extractLsb' 9 3 = x := by
    rw [extractLsb'_pack, extractLsb'_append_high _ _ _ _ (by decide)]
    exact extractLsb'_append_low _ _
  have hy : (pack (op ++ x ++ y)).extractLsb' 0 9 = y := by
    rw [extractLsb'_pack]
    exact extractLsb'_append_low _ _
  exact ⟨hop, hx, congrArg BitVec.toFin hx, hy⟩

/-- Formats BSO, NOT, JMP and JSRR: three bits, three bits, six bits. -/
theorem fields_3_3_6 (x y : BitVec 3) (z : BitVec 6) :
    opcodeOf (pack (op ++ x ++ y ++ z)) = op ∧ regField (pack (op ++ x ++ y ++ z)) 9 = x.toFin ∧
      regField (pack (op ++ x ++ y ++ z)) 6 = y.toFin ∧ offset6Field (pack (op ++ x ++ y ++ z)) = z := by
  have hop : (pack (op ++ x ++ y ++ z)).extractLsb' 12 4 = op := by
    rw [extractLsb'_pack, extractLsb'_append_high _ _ _ _ (by decide), extractLsb'_append_high _ _ _ _ (by decide),
      extractLsb'_append_high _ _ _ _ (by decide)]
    exact extractLsb'_all op
  have hx : (pack (op ++ x ++ y ++ z)).extractLsb' 9 3 = x := by
    rw [extractLsb'_pack, extractLsb'_append_high _ _ _ _ (by decide), extractLsb'_append_high _ _ _ _ (by decide)]
    exact extractLsb'_append_low _ _
  have hy : (pack (op ++ x ++ y ++ z)).extractLsb' 6 3 = y := by
    rw [extractLsb'_pack, extractLsb'_append_high _ _ _ _ (by decide)]
    exact extractLsb'_append_low _ _
  have hz : (pack (op ++ x ++ y ++ z)).extractLsb' 0 6 = z := by
    rw [extractLsb'_pack]
    exact extractLsb'_append_low _ _
  exact ⟨hop, congrArg BitVec.toFin hx, congrArg BitVec.toFin hy, hz⟩

/-- Format OPR: three bits four times; the mode bit is the top bit of the third group. -/
theorem fields_3_3_3_3 (x y m z : BitVec 3) :
    opcodeOf (pack (op ++ x ++ y ++ m ++ z)) = op ∧ regField (pack (op ++ x ++ y ++ m ++ z)) 9 = x.toFin ∧
      regField (pack (op ++ x ++ y ++ m ++ z)) 6 = y.toFin ∧
      modeBit (pack (op ++ x ++ y ++ m ++ z)) = m.getLsbD 2 ∧
      regField (pack (op ++ x ++ y ++ m ++ z)) 0 = z.toFin := by
  have hop : (pack (op ++ x ++ y ++ m ++ z)).extractLsb' 12 4 = op := by
    rw [extractLsb'_pack, extractLsb'_append_high _ _ _ _ (by decide), extractLsb'_append_high _ _ _ _ (by decide),
      extractLsb'_append_high _ _ _ _ (by decide), extractLsb'_append_high _ _ _ _ (by decide)]
    exact extractLsb'_all op
  have hx : (pack (op ++ x ++ y ++ m ++ z)).extractLsb' 9 3 = x := by
    rw [extractLsb'_pack, extractLsb'_append_high _ _ _ _ (by decide), extractLsb'_append_high _ _ _ _ (by decide),
      extractLsb'_append_high _ _ _ _ (by decide)]
    exact extractLsb'_append_low _ _
  have hy : (pack (op ++ x ++ y ++ m ++ z)).extractLsb' 6 3 = y := by
    rw [extractLsb'_pack, extractLsb'_append_high _ _ _ _ (by decide), extractLsb'_append_high _ _ _ _ (by decide)]
    exact extractLsb'_append_low _ _
  have hm : modeBit (pack (op ++ x ++ y ++ m ++ z)) = m.getLsbD 2 := by
    rw [modeBit, getLsbD_eq_extractLsb', extractLsb'_pack, extractLsb'_append_high _ _ _ _ (by decide)]
    simp only [BitVec.getLsbD_extractLsb', BitVec.getLsbD_append]
    rfl
  have hz : (pack (op ++ x ++ y ++ m ++ z)).extractLsb' 0 3 = z := by
    rw [extractLsb'_pack]
    exact extractLsb'_append_low _ _
  exact ⟨hop, congrArg BitVec.toFin hx, congrArg BitVec.toFin hy, hm, congrArg BitVec.toFin hz⟩

/-- Format OPI: three bits, three bits, the mode bit, five bits. -/
theorem fields_3_3_1_5 (x y : BitVec 3) (m : BitVec 1) (z : BitVec 5) :
    opcodeOf (pack (op ++ x ++ y ++ m ++ z)) = op ∧ regField (pack (op ++ x ++ y ++ m ++ z)) 9 = x.toFin ∧
      regField (pack (op ++ x ++ y ++ m ++ z)) 6 = y.toFin ∧
      modeBit (pack (op ++ x ++ y ++ m ++ z)) = m.getLsbD 0 ∧
      imm5Field (pack (op ++ x ++ y ++ m ++ z)) = z := by
  have hop : (pack (op ++ x ++ y ++ m ++ z)).extractLsb' 12 4 = op := by
    rw [extractLsb'_pack, extractLsb'_append_high _ _ _ _ (by decide), extractLsb'_append_high _ _ _ _ (by decide),
      extractLsb'_append_high _ _ _ _ (by decide), extractLsb'_append_high _ _ _ _ (by decide)]
    exact extractLsb'_all op
  have hx : (pack (op ++ x ++ y ++ m ++ z)).extractLsb' 9 3 = x := by
    rw [extractLsb'_pack, extractLsb'_append_high _ _ _ _ (by decide), extractLsb'_append_high _ _ _ _ (by decide),
      extractLsb'_append_high _ _ _ _ (by decide)]
    exact extractLsb'_append_low _ _
  have hy : (pack (op ++ x ++ y ++ m ++ z)).extractLsb' 6 3 = y := by
    rw [extractLsb'_pack, extractLsb'_append_high _ _ _ _ (by decide), extractLsb'_append_high _ _ _ _ (by decide)]
    exact extractLsb'_append_low _ _
  have hm : modeBit (pack (op ++ x ++ y ++ m ++ z)) = m.getLsbD 0 := by
    rw [modeBit, getLsbD_eq_extractLsb', extractLsb'_pack, extractLsb'_append_high _ _ _ _ (by decide)]
    exact congrArg (BitVec.getLsbD · 0) (extractLsb'_append_low _ _)
  have hz : (pack (op ++ x ++ y ++ m ++ z)).extractLsb' 0 5 = z := by
    rw [extractLsb'_pack]
    exact extractLsb'_append_low _ _
  exact ⟨hop, congrArg BitVec.toFin hx, congrArg BitVec.toFin hy, hm, hz⟩

/-- Format JSR: the long bit, then eleven. -/
theorem fields_1_11 (x : BitVec 1) (y : BitVec 11) :
    opcodeOf (pack (op ++ x ++ y)) = op ∧ longBit (pack (op ++ x ++ y)) = x.getLsbD 0 ∧
      pcOffset11Field (pack (op ++ x ++ y)) = y := by
  have hop : (pack (op ++ x ++ y)).extractLsb' 12 4 = op := by
    rw [extractLsb'_pack, extractLsb'_append_high _ _ _ _ (by decide), extractLsb'_append_high _ _ _ _ (by decide)]
    exact extractLsb'_all op
  have hx : longBit (pack (op ++ x ++ y)) = x.getLsbD 0 := by
    rw [longBit, getLsbD_eq_extractLsb', extractLsb'_pack, extractLsb'_append_high _ _ _ _ (by decide)]
    exact congrArg (BitVec.getLsbD · 0) (extractLsb'_append_low _ _)
  have hy : (pack (op ++ x ++ y)).extractLsb' 0 11 = y := by
    rw [extractLsb'_pack]
    exact extractLsb'_append_low _ _
  exact ⟨hop, hx, hy⟩

/-- The long bit of format JSRR is the top bit of the group above the base. -/
theorem longBit_3_3_6 (x y : BitVec 3) (z : BitVec 6) : longBit (pack (op ++ x ++ y ++ z)) = x.getLsbD 2 := by
  rw [longBit, getLsbD_eq_extractLsb', extractLsb'_pack, extractLsb'_append_high _ _ _ _ (by decide),
    extractLsb'_append_high _ _ _ _ (by decide)]
  simp only [BitVec.getLsbD_extractLsb', BitVec.getLsbD_append]
  rfl

/-- Format TRP: four bits, then eight. -/
theorem fields_4_8 (x : BitVec 4) (y : BitVec 8) :
    opcodeOf (pack (op ++ x ++ y)) = op ∧ trapvect8Field (pack (op ++ x ++ y)) = y := by
  have hop : (pack (op ++ x ++ y)).extractLsb' 12 4 = op := by
    rw [extractLsb'_pack, extractLsb'_append_high _ _ _ _ (by decide), extractLsb'_append_high _ _ _ _ (by decide)]
    exact extractLsb'_all op
  have hy : (pack (op ++ x ++ y)).extractLsb' 0 8 = y := by
    rw [extractLsb'_pack]
    exact extractLsb'_append_low _ _
  exact ⟨hop, hy⟩

/-- Format NUL: twelve bits. -/
theorem fields_12 (x : BitVec 12) : opcodeOf (pack (op ++ x)) = op := by
  rw [opcodeOf, extractLsb'_pack, extractLsb'_append_high _ _ _ _ (by decide)]
  exact extractLsb'_all op

end

/-! ### Decoding, one lemma for each opcode number -/

section
variable (w : Word)

theorem decodeOp_opcBr : decodeOp Config.opcBr.toNat w =
    .ok (.br (condField w) (pcOffset9Field w)) := rfl

theorem decodeOp_opcAdd : decodeOp Config.opcAdd.toNat w =
    .ok (if modeBit w then .addImm (regField w 9) (regField w 6) (imm5Field w) else .addReg (regField w 9) (regField w 6) (regField w 0)) := rfl

theorem decodeOp_opcLd : decodeOp Config.opcLd.toNat w =
    .ok (.ld (regField w 9) (pcOffset9Field w)) := rfl

theorem decodeOp_opcSt : decodeOp Config.opcSt.toNat w =
    .ok (.st (regField w 9) (pcOffset9Field w)) := rfl

theorem decodeOp_opcJsr : decodeOp Config.opcJsr.toNat w =
    .ok (if longBit w then .jsr (pcOffset11Field w) else .jsrr (regField w 6)) := rfl

theorem decodeOp_opcAnd : decodeOp Config.opcAnd.toNat w =
    .ok (if modeBit w then .andImm (regField w 9) (regField w 6) (imm5Field w) else .andReg (regField w 9) (regField w 6) (regField w 0)) := rfl

theorem decodeOp_opcLdr : decodeOp Config.opcLdr.toNat w =
    .ok (.ldr (regField w 9) (regField w 6) (offset6Field w)) := rfl

theorem decodeOp_opcStr : decodeOp Config.opcStr.toNat w =
    .ok (.str (regField w 9) (regField w 6) (offset6Field w)) := rfl

theorem decodeOp_opcRti : decodeOp Config.opcRti.toNat w =
    .ok .rti := rfl

theorem decodeOp_opcNot : decodeOp Config.opcNot.toNat w =
    .ok (.notReg (regField w 9) (regField w 6)) := rfl

theorem decodeOp_opcLdi : decodeOp Config.opcLdi.toNat w =
    .ok (.ldi (regField w 9) (pcOffset9Field w)) := rfl

theorem decodeOp_opcSti : decodeOp Config.opcSti.toNat w =
    .ok (.sti (regField w 9) (pcOffset9Field w)) := rfl

theorem decodeOp_opcJmp : decodeOp Config.opcJmp.toNat w =
    .ok (.jmp (regField w 6)) := rfl

theorem decodeOp_opcRes : decodeOp Config.opcRes.toNat w =
    .ok .res := rfl

theorem decodeOp_opcLea : decodeOp Config.opcLea.toNat w =
    .ok (.lea (regField w 9) (pcOffset9Field w)) := rfl

theorem decodeOp_opcTrap : decodeOp Config.opcTrap.toNat w =
    .ok (decodeTrap (trapvect8Field w)) := rfl

end

@[simp] theorem regBits_toFin (r : Reg) : (regBits r).toFin = r := rfl

end Sys2Proof
end

