-- ==== Sys2Proof/Laws/State.lean ====
section
/-! SUPPORT. One lemma for each field and each update of State, true by rfl, and the read-after-write laws of the
registers: no later proof unfolds a record update. -/

namespace Sys2Proof.Machine

variable (s : State)

/-! ### setReg -/

@[simp] theorem State.setReg_regs (i : Reg) (v : Word) : (s.setReg i v).regs = s.regs.set i v := rfl
@[simp] theorem State.setReg_pc (i : Reg) (v : Word) : (s.setReg i v).pc = s.pc := rfl
@[simp] theorem State.setReg_cond (i : Reg) (v : Word) : (s.setReg i v).cond = s.cond := rfl
@[simp] theorem State.setReg_run (i : Reg) (v : Word) : (s.setReg i v).run = s.run := rfl
@[simp] theorem State.setReg_mem (i : Reg) (v : Word) : (s.setReg i v).mem = s.mem := rfl
@[simp] theorem State.setReg_diag (i : Reg) (v : Word) : (s.setReg i v).diag = s.diag := rfl
@[simp] theorem State.setReg_input (i : Reg) (v : Word) : (s.setReg i v).input = s.input := rfl
@[simp] theorem State.setReg_sink (i : Reg) (v : Word) : (s.setReg i v).sink = s.sink := rfl
@[simp] theorem State.setReg_sinkRoom (i : Reg) (v : Word) : (s.setReg i v).sinkRoom = s.sinkRoom := rfl
@[simp] theorem State.setReg_word (i : Reg) (v : Word) (b : Word) : (s.setReg i v).word b = s.word b := rfl

/-! ### setPc -/

@[simp] theorem State.setPc_regs (v : Word) : (s.setPc v).regs = s.regs := rfl
@[simp] theorem State.setPc_pc (v : Word) : (s.setPc v).pc = v := rfl
@[simp] theorem State.setPc_cond (v : Word) : (s.setPc v).cond = s.cond := rfl
@[simp] theorem State.setPc_run (v : Word) : (s.setPc v).run = s.run := rfl
@[simp] theorem State.setPc_mem (v : Word) : (s.setPc v).mem = s.mem := rfl
@[simp] theorem State.setPc_diag (v : Word) : (s.setPc v).diag = s.diag := rfl
@[simp] theorem State.setPc_input (v : Word) : (s.setPc v).input = s.input := rfl
@[simp] theorem State.setPc_sink (v : Word) : (s.setPc v).sink = s.sink := rfl
@[simp] theorem State.setPc_sinkRoom (v : Word) : (s.setPc v).sinkRoom = s.sinkRoom := rfl
@[simp] theorem State.setPc_reg (v : Word) (j : Reg) : (s.setPc v).reg j = s.reg j := rfl
@[simp] theorem State.setPc_word (v : Word) (b : Word) : (s.setPc v).word b = s.word b := rfl

/-! ### setCond -/

@[simp] theorem State.setCond_regs (v : Word) : (s.setCond v).regs = s.regs := rfl
@[simp] theorem State.setCond_pc (v : Word) : (s.setCond v).pc = s.pc := rfl
@[simp] theorem State.setCond_cond (v : Word) : (s.setCond v).cond = v := rfl
@[simp] theorem State.setCond_run (v : Word) : (s.setCond v).run = s.run := rfl
@[simp] theorem State.setCond_mem (v : Word) : (s.setCond v).mem = s.mem := rfl
@[simp] theorem State.setCond_diag (v : Word) : (s.setCond v).diag = s.diag := rfl
@[simp] theorem State.setCond_input (v : Word) : (s.setCond v).input = s.input := rfl
@[simp] theorem State.setCond_sink (v : Word) : (s.setCond v).sink = s.sink := rfl
@[simp] theorem State.setCond_sinkRoom (v : Word) : (s.setCond v).sinkRoom = s.sinkRoom := rfl
@[simp] theorem State.setCond_reg (v : Word) (j : Reg) : (s.setCond v).reg j = s.reg j := rfl
@[simp] theorem State.setCond_word (v : Word) (b : Word) : (s.setCond v).word b = s.word b := rfl

/-! ### setRun -/

@[simp] theorem State.setRun_regs (r : RunState) : (s.setRun r).regs = s.regs := rfl
@[simp] theorem State.setRun_pc (r : RunState) : (s.setRun r).pc = s.pc := rfl
@[simp] theorem State.setRun_cond (r : RunState) : (s.setRun r).cond = s.cond := rfl
@[simp] theorem State.setRun_run (r : RunState) : (s.setRun r).run = r := rfl
@[simp] theorem State.setRun_mem (r : RunState) : (s.setRun r).mem = s.mem := rfl
@[simp] theorem State.setRun_diag (r : RunState) : (s.setRun r).diag = s.diag := rfl
@[simp] theorem State.setRun_input (r : RunState) : (s.setRun r).input = s.input := rfl
@[simp] theorem State.setRun_sink (r : RunState) : (s.setRun r).sink = s.sink := rfl
@[simp] theorem State.setRun_sinkRoom (r : RunState) : (s.setRun r).sinkRoom = s.sinkRoom := rfl
@[simp] theorem State.setRun_reg (r : RunState) (j : Reg) : (s.setRun r).reg j = s.reg j := rfl
@[simp] theorem State.setRun_word (r : RunState) (b : Word) : (s.setRun r).word b = s.word b := rfl

/-! ### setMem -/

@[simp] theorem State.setMem_regs (m : Memory) : (s.setMem m).regs = s.regs := rfl
@[simp] theorem State.setMem_pc (m : Memory) : (s.setMem m).pc = s.pc := rfl
@[simp] theorem State.setMem_cond (m : Memory) : (s.setMem m).cond = s.cond := rfl
@[simp] theorem State.setMem_run (m : Memory) : (s.setMem m).run = s.run := rfl
@[simp] theorem State.setMem_mem (m : Memory) : (s.setMem m).mem = m := rfl
@[simp] theorem State.setMem_diag (m : Memory) : (s.setMem m).diag = s.diag := rfl
@[simp] theorem State.setMem_input (m : Memory) : (s.setMem m).input = s.input := rfl
@[simp] theorem State.setMem_sink (m : Memory) : (s.setMem m).sink = s.sink := rfl
@[simp] theorem State.setMem_sinkRoom (m : Memory) : (s.setMem m).sinkRoom = s.sinkRoom := rfl
@[simp] theorem State.setMem_reg (m : Memory) (j : Reg) : (s.setMem m).reg j = s.reg j := rfl

/-! ### setDiag -/

@[simp] theorem State.setDiag_regs (d : Option Diagnostic) : (s.setDiag d).regs = s.regs := rfl
@[simp] theorem State.setDiag_pc (d : Option Diagnostic) : (s.setDiag d).pc = s.pc := rfl
@[simp] theorem State.setDiag_cond (d : Option Diagnostic) : (s.setDiag d).cond = s.cond := rfl
@[simp] theorem State.setDiag_run (d : Option Diagnostic) : (s.setDiag d).run = s.run := rfl
@[simp] theorem State.setDiag_mem (d : Option Diagnostic) : (s.setDiag d).mem = s.mem := rfl
@[simp] theorem State.setDiag_diag (d : Option Diagnostic) : (s.setDiag d).diag = d := rfl
@[simp] theorem State.setDiag_input (d : Option Diagnostic) : (s.setDiag d).input = s.input := rfl
@[simp] theorem State.setDiag_sink (d : Option Diagnostic) : (s.setDiag d).sink = s.sink := rfl
@[simp] theorem State.setDiag_sinkRoom (d : Option Diagnostic) : (s.setDiag d).sinkRoom = s.sinkRoom := rfl
@[simp] theorem State.setDiag_reg (d : Option Diagnostic) (j : Reg) : (s.setDiag d).reg j = s.reg j := rfl
@[simp] theorem State.setDiag_word (d : Option Diagnostic) (b : Word) : (s.setDiag d).word b = s.word b := rfl

/-! ### setInput -/

@[simp] theorem State.setInput_regs (h : HostInput) : (s.setInput h).regs = s.regs := rfl
@[simp] theorem State.setInput_pc (h : HostInput) : (s.setInput h).pc = s.pc := rfl
@[simp] theorem State.setInput_cond (h : HostInput) : (s.setInput h).cond = s.cond := rfl
@[simp] theorem State.setInput_run (h : HostInput) : (s.setInput h).run = s.run := rfl
@[simp] theorem State.setInput_mem (h : HostInput) : (s.setInput h).mem = s.mem := rfl
@[simp] theorem State.setInput_diag (h : HostInput) : (s.setInput h).diag = s.diag := rfl
@[simp] theorem State.setInput_input (h : HostInput) : (s.setInput h).input = h := rfl
@[simp] theorem State.setInput_sink (h : HostInput) : (s.setInput h).sink = s.sink := rfl
@[simp] theorem State.setInput_sinkRoom (h : HostInput) : (s.setInput h).sinkRoom = s.sinkRoom := rfl
@[simp] theorem State.setInput_reg (h : HostInput) (j : Reg) : (s.setInput h).reg j = s.reg j := rfl
@[simp] theorem State.setInput_word (h : HostInput) (b : Word) : (s.setInput h).word b = s.word b := rfl

/-! ### setSink -/

@[simp] theorem State.setSink_regs (cs : List Byte) (room : Option Nat) : (s.setSink cs room).regs = s.regs := rfl
@[simp] theorem State.setSink_pc (cs : List Byte) (room : Option Nat) : (s.setSink cs room).pc = s.pc := rfl
@[simp] theorem State.setSink_cond (cs : List Byte) (room : Option Nat) : (s.setSink cs room).cond = s.cond := rfl
@[simp] theorem State.setSink_run (cs : List Byte) (room : Option Nat) : (s.setSink cs room).run = s.run := rfl
@[simp] theorem State.setSink_mem (cs : List Byte) (room : Option Nat) : (s.setSink cs room).mem = s.mem := rfl
@[simp] theorem State.setSink_diag (cs : List Byte) (room : Option Nat) : (s.setSink cs room).diag = s.diag := rfl
@[simp] theorem State.setSink_input (cs : List Byte) (room : Option Nat) : (s.setSink cs room).input = s.input := rfl
@[simp] theorem State.setSink_sink (cs : List Byte) (room : Option Nat) : (s.setSink cs room).sink = cs := rfl
@[simp] theorem State.setSink_sinkRoom (cs : List Byte) (room : Option Nat) : (s.setSink cs room).sinkRoom = room := rfl
@[simp] theorem State.setSink_reg (cs : List Byte) (room : Option Nat) (j : Reg) : (s.setSink cs room).reg j = s.reg j := rfl
@[simp] theorem State.setSink_word (cs : List Byte) (room : Option Nat) (b : Word) : (s.setSink cs room).word b = s.word b := rfl

/-! ### memWrite -/

@[simp] theorem State.memWrite_regs (a v : Word) : (s.memWrite a v).regs = s.regs := rfl
@[simp] theorem State.memWrite_pc (a v : Word) : (s.memWrite a v).pc = s.pc := rfl
@[simp] theorem State.memWrite_cond (a v : Word) : (s.memWrite a v).cond = s.cond := rfl
@[simp] theorem State.memWrite_run (a v : Word) : (s.memWrite a v).run = s.run := rfl
@[simp] theorem State.memWrite_mem (a v : Word) : (s.memWrite a v).mem = s.mem.write a.toNat v := rfl
@[simp] theorem State.memWrite_diag (a v : Word) : (s.memWrite a v).diag = s.diag := rfl
@[simp] theorem State.memWrite_input (a v : Word) : (s.memWrite a v).input = s.input := rfl
@[simp] theorem State.memWrite_sink (a v : Word) : (s.memWrite a v).sink = s.sink := rfl
@[simp] theorem State.memWrite_sinkRoom (a v : Word) : (s.memWrite a v).sinkRoom = s.sinkRoom := rfl
@[simp] theorem State.memWrite_reg (a v : Word) (j : Reg) : (s.memWrite a v).reg j = s.reg j := rfl

/-! ### Registers -/

@[simp] theorem State.reg_setReg_self (i : Reg) (v : Word) : (s.setReg i v).reg i = v := by
  simp [State.reg, State.setReg]

theorem State.reg_setReg (i j : Reg) (v : Word) : (s.setReg i v).reg j = if j = i then v else s.reg j := by
  simp only [State.reg, State.setReg, Fin.getElem_fin, Vector.getElem_set, Fin.ext_iff, eq_comm]

theorem State.reg_setReg_ne {i j : Reg} (h : j ≠ i) (v : Word) : (s.setReg i v).reg j = s.reg j := by
  rw [State.reg_setReg, if_neg h]

/-- Two states that agree in every piece are one state. -/
theorem State.ext_reg {s t : State} (hr : ∀ i, s.reg i = t.reg i) (hp : s.pc = t.pc) (hc : s.cond = t.cond)
    (hu : s.run = t.run) (hm : s.mem = t.mem) (hd : s.diag = t.diag) (hi : s.input = t.input) (hk : s.sink = t.sink)
    (hn : s.sinkRoom = t.sinkRoom) : s = t := by
  cases s
  cases t
  simp only at hp hc hu hm hd hi hk hn
  subst hp hc hu hm hd hi hk hn
  congr 1
  exact Vector.ext fun i hlt => hr ⟨i, hlt⟩

/-- Writes to two registers commute. -/
theorem State.setReg_comm {i j : Reg} (h : i ≠ j) (v w : Word) :
    (s.setReg i v).setReg j w = (s.setReg j w).setReg i v := by
  apply State.ext_reg <;> try rfl
  intro k
  simp only [State.reg_setReg]
  split <;> split <;> simp_all

/-- The later of two writes to one register stays. -/
theorem State.setReg_setReg (i : Reg) (v w : Word) : (s.setReg i v).setReg i w = s.setReg i w := by
  apply State.ext_reg <;> try rfl
  intro k
  simp only [State.reg_setReg]
  split <;> simp_all

end Sys2Proof.Machine
end

