-- ==== Sys2Proof/Laws/Memory.lean ====
section
/-! SUPPORT. The laws of memory: a read after a write (on any list of words), the canonical form kept by every
operation, and memories in it that read alike are equal. -/

namespace Sys2Proof.Machine

/-! ### Read after write -/

theorem Memory.read_erase_self (m : Memory) (a : Nat) : (m.erase a).read a = Memory.blank := by
  induction m with
  | nil => rfl
  | cons c m ih =>
    obtain ⟨k, w⟩ := c
    simp only [Memory.erase]
    split
    · exact ih
    · simp [Memory.read, *]

theorem Memory.read_erase_ne (m : Memory) {a b : Nat} (h : b ≠ a) : (m.erase a).read b = m.read b := by
  induction m with
  | nil => rfl
  | cons c m ih =>
    obtain ⟨k, w⟩ := c
    simp only [Memory.erase]
    split
    · subst k
      simp [Memory.read, ih, Ne.symm h]
    · simp [Memory.read, ih]

theorem Memory.read_insert_self (m : Memory) (a : Nat) (v : Word) : (m.insert a v).read a = v := by
  induction m with
  | nil => simp [Memory.insert, Memory.read]
  | cons c m ih =>
    obtain ⟨k, w⟩ := c
    simp only [Memory.insert]
    split
    · have : k ≠ a := by omega
      simpa [Memory.read, this] using ih
    · simp [Memory.read]

theorem Memory.read_insert_ne (m : Memory) {a b : Nat} (h : b ≠ a) (v : Word) : (m.insert a v).read b = m.read b := by
  induction m with
  | nil => simp [Memory.insert, Memory.read, Ne.symm h]
  | cons c m ih =>
    obtain ⟨k, w⟩ := c
    simp only [Memory.insert]
    split
    · simp [Memory.read, ih]
    · simp [Memory.read, Ne.symm h]

@[simp] theorem Memory.read_write_self (m : Memory) (a : Nat) (v : Word) : (m.write a v).read a = v := by
  unfold Memory.write
  split
  · rw [Memory.read_erase_self, ‹v = _›]
  · exact Memory.read_insert_self _ _ _

theorem Memory.read_write_ne (m : Memory) {a b : Nat} (h : b ≠ a) (v : Word) : (m.write a v).read b = m.read b := by
  unfold Memory.write
  split
  · exact Memory.read_erase_ne m h
  · rw [Memory.read_insert_ne _ h, Memory.read_erase_ne m h]

/-! ### The canonical form -/

theorem Memory.wfFrom_cons {lo k : Nat} {w : Word} {m : Memory} :
    Memory.wfFrom lo ((k, w) :: m) = true ↔
      lo ≤ k ∧ k < memWords ∧ w ≠ Memory.blank ∧ Memory.wfFrom (k + 1) m = true := by
  simp [Memory.wfFrom, and_assoc]

theorem Memory.wfFrom_mono {lo lo' : Nat} {m : Memory} (h : lo' ≤ lo) (hm : Memory.wfFrom lo m = true) :
    Memory.wfFrom lo' m = true := by
  cases m with
  | nil => rfl
  | cons c m =>
    obtain ⟨k, w⟩ := c
    rw [Memory.wfFrom_cons] at hm ⊢
    exact ⟨by omega, hm.2⟩

theorem Memory.wfFrom_erase {lo : Nat} {m : Memory} (hm : Memory.wfFrom lo m = true) (a : Nat) :
    Memory.wfFrom lo (m.erase a) = true := by
  induction m generalizing lo with
  | nil => rfl
  | cons c m ih =>
    obtain ⟨k, w⟩ := c
    rw [Memory.wfFrom_cons] at hm
    simp only [Memory.erase]
    split
    · exact Memory.wfFrom_mono (by omega) (ih hm.2.2.2)
    · exact Memory.wfFrom_cons.mpr ⟨hm.1, hm.2.1, hm.2.2.1, ih hm.2.2.2⟩

/-- Erasing an address below every entry changes nothing. -/
theorem Memory.erase_of_lt {lo a : Nat} {m : Memory} (hm : Memory.wfFrom lo m = true) (h : a < lo) :
    m.erase a = m := by
  induction m generalizing lo with
  | nil => rfl
  | cons c m ih =>
    obtain ⟨k, w⟩ := c
    rw [Memory.wfFrom_cons] at hm
    have hk : k ≠ a := by omega
    simp only [Memory.erase, if_neg hk]
    rw [ih hm.2.2.2 (by omega)]

theorem Memory.wfFrom_insert_erase {lo a : Nat} {v : Word} {m : Memory} (hm : Memory.wfFrom lo m = true)
    (hlo : lo ≤ a) (ha : a < memWords) (hv : v ≠ Memory.blank) :
    Memory.wfFrom lo ((m.erase a).insert a v) = true := by
  induction m generalizing lo with
  | nil => exact Memory.wfFrom_cons.mpr ⟨hlo, ha, hv, rfl⟩
  | cons c m ih =>
    obtain ⟨k, w⟩ := c
    rw [Memory.wfFrom_cons] at hm
    simp only [Memory.erase]
    split
    · exact ih (Memory.wfFrom_mono (by omega) hm.2.2.2) hlo
    · simp only [Memory.insert]
      split
      · exact Memory.wfFrom_cons.mpr ⟨hm.1, hm.2.1, hm.2.2.1, ih hm.2.2.2 (by omega)⟩
      · have hm' := Memory.erase_of_lt hm.2.2.2 (show a < k + 1 by omega)
        rw [hm']
        exact Memory.wfFrom_cons.mpr ⟨hlo, ha, hv, Memory.wfFrom_cons.mpr ⟨by omega, hm.2⟩⟩

/-- Every write inside the address space keeps the canonical form. -/
theorem Memory.wf_write {m : Memory} (hm : m.wf = true) {a : Nat} (ha : a < memWords) (v : Word) :
    (m.write a v).wf = true := by
  unfold Memory.write
  split
  · exact Memory.wfFrom_erase hm a
  · exact Memory.wfFrom_insert_erase hm (Nat.zero_le a) ha ‹_›

theorem Memory.wf_nil : Memory.wf [] = true := rfl

theorem Memory.read_of_lt {lo a : Nat} {m : Memory} (hm : Memory.wfFrom lo m = true) (h : a < lo) :
    m.read a = Memory.blank := by
  induction m generalizing lo with
  | nil => rfl
  | cons c m ih =>
    obtain ⟨k, w⟩ := c
    rw [Memory.wfFrom_cons] at hm
    have hk : k ≠ a := by omega
    simp only [Memory.read, if_neg hk]
    exact ih hm.2.2.2 (by omega)

/-- No address outside the address space is listed. -/
theorem Memory.read_of_ge {lo a : Nat} {m : Memory} (hm : Memory.wfFrom lo m = true) (h : memWords ≤ a) :
    m.read a = Memory.blank := by
  induction m generalizing lo with
  | nil => rfl
  | cons c m ih =>
    obtain ⟨k, w⟩ := c
    rw [Memory.wfFrom_cons] at hm
    simp only [Memory.read, if_neg (show k ≠ a by omega)]
    exact ih hm.2.2.2

/-- A memory in canonical form is determined by what it reads. -/
theorem Memory.ext_of_wfFrom {lo : Nat} {m n : Memory} (hm : Memory.wfFrom lo m = true)
    (hn : Memory.wfFrom lo n = true) (h : ∀ a, m.read a = n.read a) : m = n := by
  induction m generalizing lo n with
  | nil =>
    cases n with
    | nil => rfl
    | cons c n =>
      obtain ⟨k, w⟩ := c
      rw [Memory.wfFrom_cons] at hn
      exact absurd (by simpa [Memory.read] using (h k).symm) hn.2.2.1
  | cons c m ih =>
    obtain ⟨k, w⟩ := c
    have hm' := Memory.wfFrom_cons.mp hm
    cases n with
    | nil => exact absurd (by simpa [Memory.read] using h k) hm'.2.2.1
    | cons d n =>
      obtain ⟨j, v⟩ := d
      have hn' := Memory.wfFrom_cons.mp hn
      have below {x y : Nat} {u : Word} {r : Memory} (hr : Memory.wfFrom (y + 1) r = true) (hxy : x < y) :
          Memory.read ((y, u) :: r) x = Memory.blank := by
        simp only [Memory.read, if_neg (show y ≠ x by omega)]
        exact Memory.read_of_lt hr (by omega)
      have hkj : k = j := by
        rcases Nat.lt_trichotomy k j with hlt | heq | hgt
        · have := h k
          rw [below hn'.2.2.2 hlt] at this
          exact absurd (by simpa [Memory.read] using this) hm'.2.2.1
        · exact heq
        · have := h j
          rw [below hm'.2.2.2 hgt] at this
          exact absurd (by simpa [Memory.read] using this.symm) hn'.2.2.1
      subst hkj
      have hwv : w = v := by simpa [Memory.read] using h k
      subst hwv
      congr 1
      refine ih hm'.2.2.2 hn'.2.2.2 fun a => ?_
      by_cases hak : k = a
      · subst hak
        rw [Memory.read_of_lt hm'.2.2.2 (by omega), Memory.read_of_lt hn'.2.2.2 (by omega)]
      · simpa [Memory.read, hak] using h a

/-! ### Words of a state -/

theorem word_lt_memWords (a : Word) : a.toNat < memWords := a.isLt

@[simp] theorem State.word_memWrite_self (s : State) (a v : Word) : (s.memWrite a v).word a = v := by
  simp [State.word]

theorem State.word_memWrite (s : State) (a b v : Word) :
    (s.memWrite a v).word b = if b = a then v else s.word b := by
  by_cases h : b = a
  · subst h
    simp
  · rw [if_neg h]
    exact Memory.read_write_ne _ (fun hab => h (BitVec.eq_of_toNat_eq hab)) v

theorem State.word_memWrite_ne (s : State) {a b : Word} (h : b ≠ a) (v : Word) :
    (s.memWrite a v).word b = s.word b := by
  rw [State.word_memWrite, if_neg h]

theorem State.memWrite_wf {s : State} (h : s.mem.wf = true) (a v : Word) : (s.memWrite a v).mem.wf = true :=
  Memory.wf_write h (word_lt_memWords a) v

end Sys2Proof.Machine
end

