-- ==== Sys2Proof/Laws/Ops.lean ====
section
/-! SUPPORT. What each shared operation can do, said once: sequencing, the host's calls, the sink, the keyboard poll,
the memory read, trap entry, sign extension and the flag update. -/

namespace Sys2Proof.Machine

/-! ### Sequencing -/

section
variable {α β : Type}

@[simp] theorem andThen_next (x : α) (f : α → Part β) : andThen (.next x) f = f x := rfl
@[simp] theorem andThen_fault (r : Fault) (f : α → Part β) : andThen (.fault r) f = .fault r := rfl
@[simp] theorem andThen_refused (r : Refusal) (f : α → Part β) : andThen (.refused r) f = .refused r := rfl

/-- A sequence ends in a next state exactly when both parts do. -/
theorem andThen_eq_next {o : Part α} {f : α → Part β} {y : β} :
    andThen o f = .next y ↔ ∃ x, o = .next x ∧ f x = .next y := by
  cases o <;> simp

/-- A sequence faults in its first part or in its second. -/
theorem andThen_eq_fault {o : Part α} {f : α → Part β} {r : Fault} :
    andThen o f = .fault r ↔ o = .fault r ∨ ∃ x, o = .next x ∧ f x = .fault r := by
  cases o <;> simp

/-- A sequence refuses in its first part or in its second. -/
theorem andThen_eq_refused {o : Part α} {f : α → Part β} {r : Refusal} :
    andThen o f = .refused r ↔ o = .refused r ∨ ∃ x, o = .next x ∧ f x = .refused r := by
  cases o <;> simp

end

/-! ### The host's input -/

theorem readChar_of_some {s : State} {c : Word} {h : HostInput} (e : s.input.readChar = some (c, h)) :
    readChar s = .next (c, s.setInput h) := by simp [readChar, e]

theorem readChar_of_none {s : State} (e : s.input.readChar = none) : readChar s = .fault .inputWait := by
  simp [readChar, e]

/-- All `readChar` can do. -/
theorem readChar_cases (s : State) :
    (∃ c h, s.input.readChar = some (c, h) ∧ readChar s = .next (c, s.setInput h)) ∨
    (s.input.readChar = none ∧ readChar s = .fault .inputWait) := by
  cases e : s.input.readChar with
  | none => exact .inr ⟨rfl, readChar_of_none e⟩
  | some p => exact .inl ⟨p.1, p.2, rfl, readChar_of_some e⟩

/-- Asking for a key takes no character. -/
@[simp] theorem keyAvailable_chars (h : HostInput) : h.keyAvailable.2.chars = h.chars := by
  unfold HostInput.keyAvailable
  split <;> rfl

@[simp] theorem keyAvailable_held (h : HostInput) : h.keyAvailable.2.held = h.held := by
  unfold HostInput.keyAvailable
  split <;> rfl

/-- Asking for a key changes nothing of what `ReadChar` returns. -/
theorem readChar_keyAvailable (h : HostInput) :
    h.keyAvailable.2.readChar = h.readChar.map fun p => (p.1, { p.2 with keyAnswers := h.keyAvailable.2.keyAnswers }) := by
  unfold HostInput.keyAvailable HostInput.readChar
  cases h with
  | mk answers chars held => cases answers <;> cases chars <;> cases held <;> rfl

/-! ### The sink -/

theorem emitAll_of_accepts {cs : List Byte} {s : State} (h : s.sinkAccepts cs.length) :
    emitAll cs s = .next (s.setSink (s.sink ++ cs) (s.sinkRoom.map (· - cs.length))) := by
  unfold emitAll
  split
  · simp [*]
  · rename_i n e
    simp [h n e, e]

/-- A sink without room for all of `cs` keeps those it has room for (R179). -/
theorem emitAll_of_room {cs : List Byte} {s : State} {n : Nat} (h : s.sinkRoom = some n) (hn : n < cs.length) :
    emitAll cs s = .fault (.fatalIO { input := s.input, sink := s.sink ++ cs.take n }) := by
  simp only [emitAll, h, if_neg (Nat.not_le.mpr hn)]
  rfl

/-- A sink rejects a character exactly when it has room for fewer. -/
theorem not_sinkAccepts {s : State} {k : Nat} : ¬ s.sinkAccepts k ↔ ∃ n, s.sinkRoom = some n ∧ n < k := by
  simp [State.sinkAccepts]

/-- All `emitAll` can do. -/
theorem emitAll_cases (cs : List Byte) (s : State) :
    (s.sinkAccepts cs.length ∧
      emitAll cs s = .next (s.setSink (s.sink ++ cs) (s.sinkRoom.map (· - cs.length)))) ∨
    (∃ n, s.sinkRoom = some n ∧ n < cs.length ∧
      emitAll cs s = .fault (.fatalIO { input := s.input, sink := s.sink ++ cs.take n })) := by
  by_cases h : s.sinkAccepts cs.length
  · exact .inl ⟨h, emitAll_of_accepts h⟩
  · obtain ⟨n, hn, hlt⟩ := not_sinkAccepts.mp h
    exact .inr ⟨n, hn, hlt, emitAll_of_room hn hlt⟩

/-- What a rejected emission leaves. -/
theorem SinkFilled.of_emitAll {cs : List Byte} {s : State} {left : HostSide} (h : emitAll cs s = .fault (.fatalIO left)) :
    left.input = s.input ∧ SinkFilled s left := by
  rcases emitAll_cases cs s with ⟨_, e⟩ | ⟨n, hr, hn, e⟩ <;> rw [e] at h <;> cases h
  exact ⟨rfl, cs.take n, rfl, by rw [hr, List.length_take, Nat.min_eq_left (Nat.le_of_lt hn)]⟩

/-- Emitting, then a rejection. -/
theorem SinkFilled.trans {s t : State} {left : HostSide} {cs : List Byte} (h : t.sink = s.sink ++ cs)
    (ha : s.sinkAccepts cs.length) (hr : t.sinkRoom = s.sinkRoom.map (· - cs.length)) (hf : SinkFilled t left) :
    SinkFilled s left := by
  obtain ⟨ds, hd, hroom⟩ := hf
  rw [hr, Option.map_eq_some_iff] at hroom
  obtain ⟨n, hn, hlen⟩ := hroom
  refine ⟨cs ++ ds, by rw [hd, h, List.append_assoc], ?_⟩
  have := ha n hn
  rw [hn, List.length_append]
  exact congrArg some (by omega)

/-- What an accepted emission leaves. -/
theorem Emitted.of_emitAll {cs : List Byte} {s t : State} (h : emitAll cs s = .next t) :
    s.sinkAccepts cs.length ∧ t = s.setSink (s.sink ++ cs) (s.sinkRoom.map (· - cs.length)) := by
  rcases emitAll_cases cs s with ⟨ha, e⟩ | ⟨_, _, _, e⟩
  · rw [e] at h
    exact ⟨ha, by injection h with h; exact h.symm⟩
  · rw [e] at h
    cases h

/-! ### The keyboard poll and the memory read -/

/-- What a poll leaves when the host says no key (R52). -/
def State.polledNoKey (s : State) : State := (s.setInput s.input.keyAvailable.2).memWrite Config.kbsr 0x0000

/-- What a poll leaves when the host hands over `c` and has `h` left (R52). -/
def State.polledKey (s : State) (c : Word) (h : HostInput) : State :=
  ((s.setInput h).memWrite Config.kbsr 0x8000).memWrite Config.kbdr c

/-- All `pollKeyboard` can do. -/
theorem pollKeyboard_cases (s : State) :
    (s.keyReady = false ∧ pollKeyboard s = .next s.polledNoKey) ∨
    (s.keyReady = true ∧ ∃ c h, s.input.keyAvailable.2.readChar = some (c, h) ∧
      pollKeyboard s = .next (s.polledKey c h)) ∨
    (s.keyReady = true ∧ s.input.readChar = none ∧ pollKeyboard s = .fault .inputWait) := by
  unfold pollKeyboard State.keyReady
  cases hk : s.input.keyAvailable.1 with
  | false => exact .inl ⟨rfl, by simp [State.polledNoKey]⟩
  | true =>
    right
    cases hr : s.input.readChar with
    | none =>
      refine .inr ⟨rfl, rfl, ?_⟩
      simp [readChar, readChar_keyAvailable, hr]
    | some p =>
      refine .inl ⟨rfl, p.1, { p.2 with keyAnswers := s.input.keyAvailable.2.keyAnswers }, ?_, ?_⟩
      · simp [readChar_keyAvailable, hr]
      · simp only [readChar, State.setInput_input, State.memWrite_input, readChar_keyAvailable, hr, Option.map_some]
        rfl

theorem memRead_of_ne {a : Word} {s : State} (h : a ≠ Config.kbsr) : memRead a s = .next (s.word a, s) := by
  simp [memRead, h]

theorem kbdr_ne_kbsr : Config.kbdr ≠ Config.kbsr := by decide

@[simp] theorem polledKey_word_kbsr (s : State) (c : Word) (h : HostInput) :
    (s.polledKey c h).word Config.kbsr = 0x8000 := by
  simp [State.polledKey, State.word_memWrite_ne _ kbdr_ne_kbsr.symm]

@[simp] theorem polledKey_word_kbdr (s : State) (c : Word) (h : HostInput) :
    (s.polledKey c h).word Config.kbdr = c := by
  simp [State.polledKey]

@[simp] theorem polledNoKey_word_kbsr (s : State) : s.polledNoKey.word Config.kbsr = 0x0000 := by
  simp [State.polledNoKey]

/-- All `memRead` can do (R52, R53). -/
theorem memRead_cases (a : Word) (s : State) :
    (a ≠ Config.kbsr ∧ memRead a s = .next (s.word a, s)) ∨
    (a = Config.kbsr ∧ s.keyReady = false ∧ memRead a s = .next (0x0000, s.polledNoKey)) ∨
    (a = Config.kbsr ∧ s.keyReady = true ∧ ∃ c h, s.input.keyAvailable.2.readChar = some (c, h) ∧
      memRead a s = .next (0x8000, s.polledKey c h)) ∨
    (a = Config.kbsr ∧ s.keyReady = true ∧ s.input.readChar = none ∧ memRead a s = .fault .inputWait) := by
  by_cases ha : a = Config.kbsr
  · subst ha
    right
    rcases pollKeyboard_cases s with ⟨hk, e⟩ | ⟨hk, c, h, hr, e⟩ | ⟨hk, hr, e⟩
    · exact .inl ⟨rfl, hk, by simp [memRead, e]⟩
    · exact .inr (.inl ⟨rfl, hk, c, h, hr, by simp [memRead, e]⟩)
    · exact .inr (.inr ⟨rfl, hk, hr, by simp [memRead, e]⟩)
  · exact .inl ⟨ha, memRead_of_ne ha⟩

/-- A read that is ready yields a word. -/
theorem memRead_of_ready {a : Word} {s : State} (h : s.readReady a) : ∃ v t, memRead a s = .next (v, t) := by
  rcases memRead_cases a s with ⟨_, e⟩ | ⟨_, _, e⟩ | ⟨_, _, c, h', _, e⟩ | ⟨ha, hk, hr, _⟩
  · exact ⟨_, _, e⟩
  · exact ⟨_, _, e⟩
  · exact ⟨_, _, e⟩
  · have := h ha hk
    simp [State.hasChar, hr] at this

/-- A read that is not ready waits. -/
theorem memRead_of_not_ready {a : Word} {s : State} (h : ¬ s.readReady a) : memRead a s = .fault .inputWait := by
  have hr : s.input.readChar = none := by
    by_contra hne
    exact h fun _ _ => by simpa [State.hasChar, Option.isSome_iff_ne_none] using hne
  have ha : a = Config.kbsr := by
    by_contra hne
    exact h fun e => absurd e hne
  have hk : s.keyReady = true := by
    by_contra hne
    exact h fun _ e => absurd e hne
  rcases memRead_cases a s with ⟨hne, _⟩ | ⟨_, hf, _⟩ | ⟨_, _, c, h', hs, _⟩ | ⟨_, _, _, e⟩
  · exact absurd ha hne
  · simp [hk] at hf
  · rw [readChar_keyAvailable, hr] at hs
    cases hs
  · exact e

/-- A read never refuses, and its only fault is the wait. -/
theorem memRead_not_refused (a : Word) (s : State) (r : Refusal) : memRead a s ≠ .refused r := by
  rcases memRead_cases a s with ⟨_, e⟩ | ⟨_, _, e⟩ | ⟨_, _, c, h', _, e⟩ | ⟨_, _, _, e⟩ <;> simp [e]

theorem memRead_fault {a : Word} {s : State} {f : Fault} (h : memRead a s = .fault f) : f = .inputWait := by
  rcases memRead_cases a s with ⟨_, e⟩ | ⟨_, _, e⟩ | ⟨_, _, c, h', _, e⟩ | ⟨_, _, _, e⟩ <;> rw [e] at h <;> cases h
  rfl

/-- The frame of a read: only the device words and the host's input can change. -/
structure ReadFrame (s t : State) : Prop where
  regs : t.regs = s.regs
  pc : t.pc = s.pc
  cond : t.cond = s.cond
  run : t.run = s.run
  diag : t.diag = s.diag
  sink : t.sink = s.sink
  sinkRoom : t.sinkRoom = s.sinkRoom
  word : ∀ b, b ≠ Config.kbsr → b ≠ Config.kbdr → t.word b = s.word b
  wf : s.mem.wf = true → t.mem.wf = true

theorem ReadFrame.refl (s : State) : ReadFrame s s :=
  ⟨rfl, rfl, rfl, rfl, rfl, rfl, rfl, fun _ _ _ => rfl, id⟩

theorem ReadFrame.reg {s t : State} (h : ReadFrame s t) (r : Reg) : t.reg r = s.reg r := by
  simp [State.reg, h.regs]

theorem polledNoKey_frame (s : State) : ReadFrame s s.polledNoKey :=
  ⟨rfl, rfl, rfl, rfl, rfl, rfl, rfl, fun b hb _ => by simp [State.polledNoKey, State.word_memWrite_ne _ hb],
    fun h => State.memWrite_wf (by simpa using h) _ _⟩

theorem polledKey_frame (s : State) (c : Word) (h : HostInput) : ReadFrame s (s.polledKey c h) :=
  ⟨rfl, rfl, rfl, rfl, rfl, rfl, rfl,
    fun b hb hb' => by simp [State.polledKey, State.word_memWrite_ne _ hb, State.word_memWrite_ne _ hb'],
    fun hw => State.memWrite_wf (State.memWrite_wf (by simpa using hw) _ _) _ _⟩

theorem memRead_frame {a v : Word} {s t : State} (h : memRead a s = .next (v, t)) : ReadFrame s t := by
  rcases memRead_cases a s with ⟨_, e⟩ | ⟨_, _, e⟩ | ⟨_, _, c, h', _, e⟩ | ⟨_, _, _, e⟩ <;> rw [e] at h <;> cases h
  · exact .refl s
  · exact polledNoKey_frame s
  · exact polledKey_frame s c h'

/-- A read away from KBSR is plain. -/
theorem memRead_plain {a v : Word} {s t : State} (h : memRead a s = .next (v, t)) (ha : a ≠ Config.kbsr) :
    v = s.word a ∧ t = s := by
  rw [memRead_of_ne ha] at h
  cases h
  exact ⟨rfl, rfl⟩

/-- A read of KBSR yields one of two words. -/
theorem memRead_kbsr {v : Word} {s t : State} (h : memRead Config.kbsr s = .next (v, t)) : v = 0x8000 ∨ v = 0x0000 := by
  rcases memRead_cases Config.kbsr s with ⟨hne, _⟩ | ⟨_, _, e⟩ | ⟨_, _, c, h', _, e⟩ | ⟨_, _, _, e⟩
  · exact absurd rfl hne
  · rw [e] at h
    cases h
    exact .inr rfl
  · rw [e] at h
    cases h
    exact .inl rfl
  · rw [e] at h
    cases h

/-! ### Trap entry, with the configuration's default -/

@[simp] theorem trapEntry_eq (s : State) : trapEntry s = s := rfl

@[simp] theorem writeInput_eq (c : Word) (s : State) : writeInput c s = s.setReg 0 c := rfl

/-! ### Sign extension -/

/-- The spec's `sext_N` of a field is the field's two's-complement value in 16 bits (R87). -/
theorem sext_eq_signExtend {n : Nat} (hn : 0 < n) (hn' : n ≤ 16) (f : BitVec n) : sext f = f.signExtend 16 := by
  apply BitVec.eq_of_getLsbD_eq
  intro i hi
  have hm : f.msb = f.getLsbD (n - 1) := by rw [BitVec.msb_eq_getLsbD_last]
  rw [BitVec.getLsbD_signExtend]
  unfold sext signExtend
  have hlast : (f.setWidth 16).getLsbD (n - 1) = f.getLsbD (n - 1) := by
    rw [BitVec.getLsbD_setWidth]
    simp [show n - 1 < 16 by omega]
  have hones : (0xFFFF#16).getLsbD (i - n) = true := by
    have : (0xFFFF#16) = BitVec.allOnes 16 := by decide
    rw [this, BitVec.getLsbD_allOnes]
    simp
    omega
  rw [hlast, hm]
  by_cases hb : f.getLsbD (n - 1) = true
  · rw [if_pos hb, BitVec.getLsbD_or, BitVec.getLsbD_setWidth, BitVec.getLsbD_shiftLeft, hones]
    by_cases hin : i < n
    · simp [hi, hin]
    · simp [hi, hin, hb, BitVec.getLsbD_of_ge f i (by omega)]
  · rw [if_neg hb, BitVec.getLsbD_setWidth]
    by_cases hin : i < n
    · simp [hi, hin]
    · simp only [Bool.not_eq_true] at hb
      simp [hi, hin, hb, BitVec.getLsbD_of_ge f i (by omega)]

/-! ### The flag update and results -/

theorem condOf_zero : condOf 0x0000 = Config.flZro := by simp [condOf]

theorem condOf_negative {v : Word} (h : v.getLsbD 15 = true) : condOf v = Config.flNeg := by
  have : v ≠ 0x0000 := by
    rintro rfl
    simp at h
  unfold condOf
  rw [if_neg this, if_pos h]

theorem condOf_positive {v : Word} (h0 : v ≠ 0x0000) (h : v.getLsbD 15 = false) : condOf v = Config.flPos := by
  unfold condOf
  rw [if_neg h0, if_neg (h ▸ Bool.false_ne_true)]

/-- `setcc` leaves exactly one flag. -/
theorem condOf_oneHot (v : Word) : condOf v = Config.flPos ∨ condOf v = Config.flZro ∨ condOf v = Config.flNeg := by
  unfold condOf
  split
  · exact .inr (.inl rfl)
  · split
    · exact .inr (.inr rfl)
    · exact .inl rfl

/-- What writing a result leaves, in one line. -/
theorem writeResult_eq (dr : Reg) (v : Word) (s : State) :
    writeResult dr v s = (s.setReg dr v).setCond (condOf v) := by
  simp [writeResult, setcc]

theorem resultWritten (dr : Reg) (v : Word) (s : State) : ResultWritten dr v s (writeResult dr v s) := by
  rw [writeResult_eq]
  exact {
    value := by simp
    zero := fun h => by subst h; exact condOf_zero
    negative := fun h => by simp [condOf_negative h]
    positive := fun h0 h => by simp [condOf_positive h0 h]
    regs := fun r h => by simp [State.reg_setReg_ne s h]
    pc := rfl
    mem := fun _ => rfl
    outside := ⟨rfl, rfl, rfl, rfl, rfl⟩ }

theorem wordStored (a v : Word) (s : State) : WordStored a v s (s.memWrite a v) where
  stored := by simp
  others := fun _ h => State.word_memWrite_ne s h v
  regs := fun _ => rfl
  pc := rfl
  cond := rfl
  outside := ⟨rfl, rfl, rfl, rfl, rfl⟩

theorem writeResult_setReg_self (s : State) (i : Reg) (v w : Word) :
    writeResult i w (s.setReg i v) = writeResult i w s := by
  rw [writeResult_eq, writeResult_eq, State.setReg_setReg]

theorem writeResult_setReg_ne (s : State) {i j : Reg} (h : i ≠ j) (v w : Word) :
    writeResult j w (s.setReg i v) = (writeResult j w s).setReg i v := by
  rw [writeResult_eq, writeResult_eq, State.setReg_comm _ h]
  rfl

/-! ### The host's calls and the memory read look at no register -/

theorem emitAll_setReg (cs : List Byte) (s : State) (r : Reg) (v : Word) :
    emitAll cs (s.setReg r v) = andThen (emitAll cs s) fun t => .next (t.setReg r v) := by
  unfold emitAll
  simp only [State.setReg_sinkRoom]
  split
  · rfl
  · split <;> rfl

theorem readChar_setReg (s : State) (r : Reg) (v : Word) :
    readChar (s.setReg r v) = andThen (readChar s) fun p => .next (p.1, p.2.setReg r v) := by
  simp only [readChar, State.setReg_input]
  cases s.input.readChar <;> rfl

theorem memRead_setReg (a : Word) (s : State) (r : Reg) (v : Word) :
    memRead a (s.setReg r v) = andThen (memRead a s) fun p => .next (p.1, p.2.setReg r v) := by
  have hp : pollKeyboard (s.setReg r v) = andThen (pollKeyboard s) fun t => .next (t.setReg r v) := by
    unfold pollKeyboard
    by_cases hk : s.input.keyAvailable.1 = true
    · have hk' : (s.setReg r v).input.keyAvailable.1 = true := hk
      have e : ((s.setReg r v).setInput (s.setReg r v).input.keyAvailable.2).memWrite Config.kbsr 0x8000 =
        ((s.setInput s.input.keyAvailable.2).memWrite Config.kbsr 0x8000).setReg r v := rfl
      rw [if_pos hk, if_pos hk', e, readChar_setReg]
      cases readChar ((s.setInput s.input.keyAvailable.2).memWrite Config.kbsr 0x8000) <;> rfl
    · have hk' : ¬ (s.setReg r v).input.keyAvailable.1 = true := hk
      rw [if_neg hk, if_neg hk']
      rfl
  unfold memRead
  split
  · rw [hp]
    cases pollKeyboard s <;> rfl
  · rfl

end Sys2Proof.Machine
end

