-- ==== Sys2Proof/Laws/Scan.lean ====
section
/-! SUPPORT. The string loop of PUTS and PUTSP: what it can change, more fuel never changes an outcome, it agrees with
the unbounded loop `Scan`, and the fuel the instructions give it is enough (log 31). -/

namespace Sys2Proof.Machine

variable {unpack : Word → List Byte}

/-! ### One turn of the loop -/

/-- A turn that reads zero ends the loop. -/
theorem scanString_zero {a : Word} {s t : State} (f : Nat) (h : memRead a s = .next (0x0000, t)) :
    scanString unpack (f + 1) a s = .next t := by
  simp [scanString, h]

/-- A turn that emits goes on at the next address. -/
theorem scanString_more {a w : Word} {s s1 s2 : State} (f : Nat) (h : memRead a s = .next (w, s1)) (hw : w ≠ 0x0000)
    (he : emitAll (unpack w) s1 = .next s2) :
    scanString unpack (f + 1) a s = scanString unpack f (a + 1) s2 := by
  simp only [scanString, h, andThen_next, if_neg hw, he]

/-- A turn whose read waits. -/
theorem scanString_waits {a : Word} {s : State} {r : Fault} (f : Nat) (h : memRead a s = .fault r) :
    scanString unpack (f + 1) a s = .fault r := by
  simp [scanString, h]

/-- A turn whose characters are rejected. -/
theorem scanString_rejected {a w : Word} {s s1 : State} {r : Fault} (f : Nat) (h : memRead a s = .next (w, s1))
    (hw : w ≠ 0x0000) (he : emitAll (unpack w) s1 = .fault r) :
    scanString unpack (f + 1) a s = .fault r := by
  simp only [scanString, h, andThen_next, if_neg hw, he, andThen_fault]

/-- The four ways a turn can go. -/
theorem scan_turn_cases (unpack : Word → List Byte) (a : Word) (s : State) :
    (∃ t, memRead a s = .next (0x0000, t)) ∨
    (∃ w s1 s2, memRead a s = .next (w, s1) ∧ w ≠ 0x0000 ∧ emitAll (unpack w) s1 = .next s2) ∨
    memRead a s = .fault .inputWait ∨
    (∃ w s1 left, memRead a s = .next (w, s1) ∧ w ≠ 0x0000 ∧
      emitAll (unpack w) s1 = .fault (.fatalIO left)) := by
  by_cases hr : s.readReady a
  · obtain ⟨w, s1, h⟩ := memRead_of_ready hr
    by_cases hw : w = 0x0000
    · subst hw
      exact .inl ⟨s1, h⟩
    · rcases emitAll_cases (unpack w) s1 with ⟨_, e⟩ | ⟨_, _, _, e⟩
      · exact .inr (.inl ⟨w, s1, _, h, hw, e⟩)
      · exact .inr (.inr (.inr ⟨w, s1, _, h, hw, e⟩))
  · exact .inr (.inr (.inl (memRead_of_not_ready hr)))

/-! ### Fuel and the unbounded loop -/

/-- An outcome other than running out of fuel does not depend on the fuel. -/
theorem scanString_add {f : Nat} {a : Word} {s : State} {o : Part State} (h : scanString unpack f a s = o)
    (ho : o ≠ .fault .noEnd) (k : Nat) : scanString unpack (f + k) a s = o := by
  induction f generalizing a s with
  | zero => exact absurd h.symm ho
  | succ f ih =>
    rw [Nat.succ_add]
    rcases scan_turn_cases unpack a s with ⟨t, e⟩ | ⟨w, s1, s2, e, hw, he⟩ | e | ⟨w, s1, _, e, hw, he⟩
    · rw [scanString_zero _ e] at h ⊢
      exact h
    · rw [scanString_more _ e hw he] at h ⊢
      exact ih h
    · rw [scanString_waits _ e] at h ⊢
      exact h
    · rw [scanString_rejected _ e hw he] at h ⊢
      exact h

/-- A loop that runs out of some fuel runs out of any smaller. -/
theorem scanString_noEnd_of_le {f f' : Nat} {a : Word} {s : State}
    (h : scanString unpack f a s = .fault .noEnd) (hle : f' ≤ f) : scanString unpack f' a s = .fault .noEnd := by
  by_contra hne
  have := scanString_add rfl hne (f - f')
  rw [Nat.add_sub_cancel' hle, h] at this
  exact hne this.symm

/-- What the bounded loop computes, the unbounded loop does. -/
theorem Scan.of_scanString {f : Nat} {a : Word} {s : State} {o : Part State} (h : scanString unpack f a s = o)
    (ho : o ≠ .fault .noEnd) : Scan unpack a s o := by
  induction f generalizing a s with
  | zero => exact absurd h.symm ho
  | succ f ih =>
    rcases scan_turn_cases unpack a s with ⟨t, e⟩ | ⟨w, s1, s2, e, hw, he⟩ | e | ⟨w, s1, _, e, hw, he⟩
    · rw [scanString_zero _ e] at h
      exact h ▸ .zero e
    · rw [scanString_more _ e hw he] at h
      exact .more e hw he (ih h)
    · rw [scanString_waits _ e] at h
      exact h ▸ .waits e
    · rw [scanString_rejected _ e hw he] at h
      exact h ▸ .rejected e hw he

/-- What the unbounded loop does, the bounded loop computes with enough fuel. -/
theorem Scan.scanString {a : Word} {s : State} {o : Part State} (h : Scan unpack a s o) :
    ∃ f, scanString unpack f a s = o := by
  induction h with
  | zero e => exact ⟨1, scanString_zero 0 e⟩
  | more e hw he _ ih =>
    obtain ⟨f, hf⟩ := ih
    exact ⟨f + 1, by rw [scanString_more _ e hw he, hf]⟩
  | waits e => exact ⟨1, scanString_waits 0 e⟩
  | rejected e hw he => exact ⟨1, scanString_rejected 0 e hw he⟩

/-- The unbounded loop never has the outcome `noEnd`. -/
theorem Scan.ne_noEnd {a : Word} {s : State} {o : Part State} (h : Scan unpack a s o) : o ≠ .fault .noEnd := by
  induction h with
  | zero _ => simp
  | more _ _ _ _ ih => exact ih
  | waits e => simp [memRead_fault e]
  | rejected e hw he =>
    rename_i s1 f
    rcases emitAll_cases _ s1 with ⟨_, e'⟩ | ⟨_, _, _, e'⟩ <;> rw [e'] at he <;> cases he
    simp

/-! ### What the loop can change -/

/-- The frame of the loop: the device words, the host's input and the sink are all it can change. -/
structure ScanFrame (s t : State) : Prop where
  regs : t.regs = s.regs
  pc : t.pc = s.pc
  cond : t.cond = s.cond
  run : t.run = s.run
  diag : t.diag = s.diag
  word : ∀ b, b ≠ Config.kbsr → b ≠ Config.kbdr → t.word b = s.word b
  wf : s.mem.wf = true → t.mem.wf = true
  sink : ∃ cs, t.sink = s.sink ++ cs ∧ s.sinkAccepts cs.length ∧ t.sinkRoom = s.sinkRoom.map (· - cs.length)

/-- Emitting after emitting. -/
theorem sink_trans {s t u : State} {cs ds : List Byte} (h1 : t.sink = s.sink ++ cs) (ha1 : s.sinkAccepts cs.length)
    (hr1 : t.sinkRoom = s.sinkRoom.map (· - cs.length)) (h2 : u.sink = t.sink ++ ds)
    (ha2 : t.sinkAccepts ds.length) (hr2 : u.sinkRoom = t.sinkRoom.map (· - ds.length)) :
    ∃ es, u.sink = s.sink ++ es ∧ s.sinkAccepts es.length ∧ u.sinkRoom = s.sinkRoom.map (· - es.length) := by
  refine ⟨cs ++ ds, by rw [h2, h1, List.append_assoc], fun n hn => ?_, ?_⟩
  · have h := ha1 n hn
    have h' := ha2 (n - cs.length) (by rw [hr1, hn]; rfl)
    rw [List.length_append]
    omega
  · rw [hr2, hr1, Option.map_map, List.length_append]
    congr 1
    funext n
    simp only [Function.comp_apply]
    omega

theorem ReadFrame.toScan {s t : State} (h : ReadFrame s t) : ScanFrame s t :=
  ⟨h.regs, h.pc, h.cond, h.run, h.diag, h.word, h.wf,
    [], by simp [h.sink], fun _ _ => Nat.zero_le _, by simp [h.sinkRoom]⟩

theorem ScanFrame.of_emitAll {cs : List Byte} {s t : State} (h : emitAll cs s = .next t) : ScanFrame s t := by
  obtain ⟨ha, rfl⟩ := Emitted.of_emitAll h
  exact ⟨rfl, rfl, rfl, rfl, rfl, fun _ _ _ => rfl, id, cs, rfl, ha, rfl⟩

theorem ScanFrame.trans {s t u : State} (h1 : ScanFrame s t) (h2 : ScanFrame t u) : ScanFrame s u := by
  obtain ⟨cs, hs1, ha1, hr1⟩ := h1.sink
  obtain ⟨ds, hs2, ha2, hr2⟩ := h2.sink
  exact ⟨h2.regs.trans h1.regs, h2.pc.trans h1.pc, h2.cond.trans h1.cond, h2.run.trans h1.run,
    h2.diag.trans h1.diag, fun b hb hb' => (h2.word b hb hb').trans (h1.word b hb hb'), fun hw => h2.wf (h1.wf hw),
    sink_trans hs1 ha1 hr1 hs2 ha2 hr2⟩

theorem scanString_frame {f : Nat} {a : Word} {s t : State} (h : scanString unpack f a s = .next t) :
    ScanFrame s t := by
  induction f generalizing a s with
  | zero => cases h
  | succ f ih =>
    rcases scan_turn_cases unpack a s with ⟨u, e⟩ | ⟨w, s1, s2, e, hw, he⟩ | e | ⟨w, s1, _, e, hw, he⟩
    · rw [scanString_zero _ e] at h
      cases h
      exact (memRead_frame e).toScan
    · rw [scanString_more _ e hw he] at h
      exact ((memRead_frame e).toScan.trans (ScanFrame.of_emitAll he)).trans (ih h)
    · rw [scanString_waits _ e] at h
      cases h
    · rw [scanString_rejected _ e hw he] at h
      cases h

/-- A loop whose sink rejects a character has filled the sink. -/
theorem scanString_sinkFilled {f : Nat} {a : Word} {s : State} {left : HostSide}
    (h : scanString unpack f a s = .fault (.fatalIO left)) : SinkFilled s left := by
  induction f generalizing a s with
  | zero => cases h
  | succ f ih =>
    rcases scan_turn_cases unpack a s with ⟨u, e⟩ | ⟨w, s1, s2, e, hw, he⟩ | e | ⟨w, s1, _, e, hw, he⟩
    · rw [scanString_zero _ e] at h
      cases h
    · rw [scanString_more _ e hw he] at h
      obtain ⟨cs, hs, ha, hr⟩ := ((memRead_frame e).toScan.trans (ScanFrame.of_emitAll he)).sink
      exact (ih h).trans hs ha hr
    · rw [scanString_waits _ e] at h
      cases h
    · rw [scanString_rejected _ e hw he] at h
      cases h
      exact (SinkFilled.of_emitAll he).2.trans (cs := []) (by simp [(memRead_frame e).sink]) (fun _ _ => Nat.zero_le _)
        (by simp [(memRead_frame e).sinkRoom])

/-- The loop never refuses, and its faults are the wait, the sink's and the lack of fuel. -/
theorem scanString_not_refused (f : Nat) (a : Word) (s : State) (r : Refusal) :
    scanString unpack f a s ≠ .refused r := by
  induction f generalizing a s with
  | zero => simp [scanString]
  | succ f ih =>
    rcases scan_turn_cases unpack a s with ⟨u, e⟩ | ⟨w, s1, s2, e, hw, he⟩ | e | ⟨w, s1, _, e, hw, he⟩
    · simp [scanString_zero _ e]
    · rw [scanString_more _ e hw he]
      exact ih _ _
    · simp [scanString_waits _ e]
    · simp [scanString_rejected _ e hw he]

/-! ### The fuel is enough -/

/-- What of the host's scripts is left: every poll that goes on uses some of it up, until none is left. -/
def potential (s : State) : Nat := s.input.keyAnswers.length + s.input.chars.length

/-- A state on which a poll that goes on has no effect: scripts used up, a key held, the device words as a poll leaves
them, and a sink that takes everything. -/
structure Steady (s : State) (c : Word) : Prop where
  answers : s.input.keyAnswers = []
  chars : s.input.chars = []
  held : s.input.held = some c
  kbsr : s.word Config.kbsr = 0x8000
  kbdr : s.word Config.kbdr = c
  room : s.sinkRoom = none

/-- The state after `d` turns that go on through addresses that are not KBSR: only the sink has grown. -/
theorem scan_skip {d f : Nat} {a : Word} {s : State} (hroom : s.sinkRoom = none)
    (hk : ∀ j, j < d → a + BitVec.ofNat 16 j ≠ Config.kbsr)
    (h : scanString unpack (d + f) a s = .fault .noEnd) :
    (∀ j, j < d → s.word (a + BitVec.ofNat 16 j) ≠ 0x0000) ∧
    ∃ cs, (∀ f', scanString unpack (d + f') a s =
      scanString unpack f' (a + BitVec.ofNat 16 d) (s.setSink cs none)) := by
  induction d generalizing a s with
  | zero =>
    refine ⟨fun j hj => absurd hj (Nat.not_lt_zero j), s.sink, fun f' => ?_⟩
    rw [Nat.zero_add, show a + BitVec.ofNat 16 0 = a by simp, ← hroom]
    rfl
  | succ d ih =>
    have ha : a ≠ Config.kbsr := by simpa using hk 0 (Nat.succ_pos d)
    have e := memRead_of_ne (s := s) ha
    rw [Nat.succ_add] at h
    have hw : s.word a ≠ 0x0000 := by
      intro h0
      rw [scanString_zero _ (h0 ▸ e)] at h
      cases h
    have hs : emitAll (unpack (s.word a)) s = .next (s.setSink (s.sink ++ unpack (s.word a)) none) := by
      simp [emitAll, hroom]
    rw [scanString_more _ e hw hs] at h
    have hshift : ∀ j, a + 1 + BitVec.ofNat 16 j = a + BitVec.ofNat 16 (j + 1) := fun j => by
      rw [BitVec.add_assoc, ← BitVec.ofNat_add_ofNat (x := j), BitVec.add_comm 1]
      rfl
    obtain ⟨hnz, cs, hcs⟩ := ih (a := a + 1) (s := s.setSink (s.sink ++ unpack (s.word a)) none) rfl
      (fun j hj => by rw [hshift]; exact hk (j + 1) (by omega)) h
    refine ⟨fun j hj => ?_, cs, fun f' => ?_⟩
    · cases j with
      | zero => simpa using hw
      | succ j =>
        rw [← hshift]
        exact hnz j (by omega)
    · rw [Nat.succ_add, scanString_more _ e hw hs, hcs, hshift]
      rfl

/-- A turn at KBSR that goes on has polled a key; it used up a script or left a steady state. -/
theorem scan_poll {f : Nat} {s : State} (hroom : s.sinkRoom = none)
    (h : scanString unpack (f + 1) Config.kbsr s = .fault .noEnd) :
    ∃ s2, (∀ f', scanString unpack (f' + 1) Config.kbsr s = scanString unpack f' (Config.kbsr + 1) s2) ∧
      s2.sinkRoom = none ∧ (potential s2 < potential s ∨ ∃ c, Steady s2 c) := by
  rcases memRead_cases Config.kbsr s with ⟨hne, _⟩ | ⟨_, _, e⟩ | ⟨_, _, c, hst, hr, e⟩ | ⟨_, _, _, e⟩
  · exact absurd rfl hne
  · rw [scanString_zero _ e] at h
    cases h
  · have hw : (0x8000 : Word) ≠ 0x0000 := by decide
    have hs : emitAll (unpack 0x8000) (s.polledKey c hst) =
        .next ((s.polledKey c hst).setSink (s.sink ++ unpack 0x8000) none) := by
      simp [emitAll, State.polledKey, hroom]
    refine ⟨_, fun f' => scanString_more f' e hw hs, rfl, ?_⟩
    generalize ht : (s.polledKey c hst).setSink (s.sink ++ unpack 0x8000) none = t
    have hin : t.input = hst := by rw [← ht]; rfl
    have hkbsr : t.word Config.kbsr = 0x8000 := by rw [← ht]; simp
    have hkbdr : t.word Config.kbdr = c := by rw [← ht]; simp
    have hroom' : t.sinkRoom = none := by rw [← ht]; rfl
    unfold potential
    rw [hin]
    generalize s.input = input at hr
    obtain ⟨answers, chars, held⟩ := input
    cases answers with
    | cons b bs =>
      refine .inl ?_
      cases chars with
      | cons c' cs =>
        simp only [HostInput.keyAvailable, HostInput.readChar, Option.some.injEq, Prod.mk.injEq] at hr
        obtain ⟨-, rfl⟩ := hr
        simp only [List.length_cons]
        omega
      | nil =>
        simp only [HostInput.keyAvailable, HostInput.readChar, Option.map_eq_some_iff, Prod.mk.injEq] at hr
        obtain ⟨_, -, -, rfl⟩ := hr
        simp only [List.length_cons, List.length_nil]
        omega
    | nil =>
      cases chars with
      | cons c' cs =>
        simp only [HostInput.keyAvailable, HostInput.readChar, Option.some.injEq, Prod.mk.injEq] at hr
        obtain ⟨-, rfl⟩ := hr
        refine .inl ?_
        simp only [List.length_cons, List.length_nil]
        omega
      | nil =>
        simp only [HostInput.keyAvailable, HostInput.readChar, Option.map_eq_some_iff, Prod.mk.injEq] at hr
        obtain ⟨x, hx, rfl, rfl⟩ := hr
        exact .inr ⟨x, by rw [hin], by rw [hin], by rw [hin]; exact hx, hkbsr, hkbdr, hroom'⟩
  · rw [scanString_waits _ e] at h
    cases h

/-- On a steady state whose words are all non-zero the loop goes on for ever. -/
theorem scan_steady {c : Word} (f : Nat) {a : Word} {s : State} (hs : Steady s c) (hnz : ∀ b, s.word b ≠ 0x0000) :
    scanString unpack f a s = .fault .noEnd := by
  induction f generalizing a s with
  | zero => rfl
  | succ f ih =>
    have hemit (t : State) (cs : List Byte) (h : t.sinkRoom = none) :
        emitAll cs t = .next (t.setSink (t.sink ++ cs) none) := by simp [emitAll, h]
    rcases memRead_cases a s with ⟨_, e⟩ | ⟨_, hk, _⟩ | ⟨_, _, c', hst, hr, e⟩ | ⟨_, _, hr, _⟩
    · rw [scanString_more f e (hnz a) (hemit s _ hs.room)]
      exact ih ⟨hs.answers, hs.chars, hs.held, hs.kbsr, hs.kbdr, rfl⟩ hnz
    · simp [State.keyReady, HostInput.keyAvailable, hs.answers, hs.chars, hs.held] at hk
    · have hst' : c = c' ∧ s.input = hst := by
        simpa [HostInput.keyAvailable, HostInput.readChar, hs.answers, hs.chars, hs.held] using hr
      obtain ⟨rfl, rfl⟩ := hst'
      have hword : ∀ b, (s.polledKey c s.input).word b = s.word b := fun b => by
        by_cases h1 : b = Config.kbdr
        · rw [h1, polledKey_word_kbdr, hs.kbdr]
        · by_cases h2 : b = Config.kbsr
          · rw [h2, polledKey_word_kbsr, hs.kbsr]
          · exact (polledKey_frame s c s.input).word b h2 h1
      rw [scanString_more f e (by decide) (hemit (s.polledKey c s.input) _ hs.room)]
      exact ih ⟨hs.answers, hs.chars, hs.held, (hword _).trans hs.kbsr, (hword _).trans hs.kbdr, rfl⟩
        fun b => by
          have := hnz b
          rwa [← hword b] at this
    · simp [HostInput.readChar, hs.chars, hs.held] at hr

/-- Every address is reached from KBSR + 1 in fewer than 65536 increments, KBSR in exactly 65535. -/
theorem addr_from (a b : Word) : a + BitVec.ofNat 16 (b - a).toNat = b := by
  rw [BitVec.ofNat_toNat, BitVec.setWidth_eq, BitVec.add_comm, BitVec.sub_add_cancel]

theorem addr_from_ne (a b : Word) {j : Nat} (h : j < (b - a).toNat) : a + BitVec.ofNat 16 j ≠ b := by
  intro e
  have hj : BitVec.ofNat 16 j = b - a := by
    rw [← e, BitVec.add_comm, BitVec.add_sub_cancel]
  have := congrArg BitVec.toNat hj
  rw [BitVec.toNat_ofNat, Nat.mod_eq_of_lt (by have := (b - a).isLt; omega)] at this
  omega

/-- With an unlimited sink, a loop that has gone on for two laps more than the host has scripted answers and characters
never ends. -/
theorem scan_forever {f : Nat} {a : Word} {s : State} (hroom : s.sinkRoom = none)
    (hf : 65536 * (potential s + 2) ≤ f) (h : scanString unpack f a s = .fault .noEnd) (f' : Nat) :
    scanString unpack f' a s = .fault .noEnd := by
  generalize hp : potential s = p at hf
  induction p using Nat.strong_induction_on generalizing f f' a s with
  | _ p ih =>
    have hlt := (Config.kbsr - a).isLt
    obtain ⟨f1, rfl⟩ : ∃ f1, f = (Config.kbsr - a).toNat + (f1 + 1) :=
      ⟨f - (Config.kbsr - a).toNat - 1, by omega⟩
    obtain ⟨-, cs, hskip⟩ := scan_skip hroom (fun j hj => addr_from_ne a Config.kbsr hj) h
    rw [addr_from] at hskip
    rw [hskip] at h
    obtain ⟨s2, hturn, hroom2, hpot⟩ := scan_poll rfl h
    rw [hturn] at h
    have hall : ∀ f', scanString unpack f' (Config.kbsr + 1) s2 = .fault .noEnd := by
      rcases hpot with hlt2 | ⟨c, hsteady⟩
      · have hpot2 : potential s2 < p := by
          rw [← hp]
          exact hlt2
        exact fun f' => ih (potential s2) hpot2 hroom2 h f' rfl (by omega)
      · have hd : (Config.kbsr - (Config.kbsr + 1)).toNat = 65535 := by decide
        obtain ⟨hnz, -⟩ := scan_skip (d := 65535) (f := f1 - 65535) hroom2
          (fun j hj => addr_from_ne (Config.kbsr + 1) Config.kbsr (by rw [hd]; exact hj))
          (by rw [Nat.add_sub_cancel' (by omega)]; exact h)
        refine fun f' => scan_steady f' hsteady fun b => ?_
        by_cases hb : b = Config.kbsr
        · rw [hb, hsteady.kbsr]
          decide
        · have hlast : (b - (Config.kbsr + 1)).toNat < 65535 := by
            have := (b - (Config.kbsr + 1)).isLt
            by_contra hge
            have h65535 : (b - (Config.kbsr + 1)).toNat = 65535 := by omega
            have := addr_from (Config.kbsr + 1) b
            rw [h65535] at this
            exact hb (this.symm.trans (by decide))
          have := hnz _ hlast
          rwa [addr_from] at this
    exact scanString_noEnd_of_le (f := (Config.kbsr - a).toNat + (f' + 1)) (by rw [hskip, hturn, hall]) (by omega)

/-- A sink with room for `n` characters does not last more than `n` turns. -/
theorem scan_room {n f : Nat} {a : Word} {s : State} (hne : ∀ w, unpack w ≠ []) (hroom : s.sinkRoom = some n)
    (hf : n < f) : scanString unpack f a s ≠ .fault .noEnd := by
  induction f generalizing n a s with
  | zero => omega
  | succ f ih =>
    rcases scan_turn_cases unpack a s with ⟨t, e⟩ | ⟨w, s1, s2, e, hw, he⟩ | e | ⟨w, s1, _, e, hw, he⟩
    · simp [scanString_zero _ e]
    · rw [scanString_more _ e hw he]
      obtain ⟨ha, rfl⟩ := Emitted.of_emitAll he
      have hroom1 : s1.sinkRoom = some n := (memRead_frame e).sinkRoom.trans hroom
      have hlen : 0 < (unpack w).length := List.length_pos_iff.mpr (hne w)
      have := ha n hroom1
      exact ih (n := n - (unpack w).length) (by simp [hroom1]) (by omega)
    · simp [scanString_waits _ e]
    · simp [scanString_rejected _ e hw he]

/-- The fuel PUTS and PUTSP give the loop is enough: a loop that runs out of it never ends. -/
theorem scanFuel_enough {a : Word} {s : State} (hne : ∀ w, unpack w ≠ [])
    (h : scanString unpack (scanFuel s) a s = .fault .noEnd) (f : Nat) :
    scanString unpack f a s = .fault .noEnd := by
  cases hroom : s.sinkRoom with
  | none =>
    refine scan_forever hroom ?_ h f
    unfold potential scanFuel
    omega
  | some n =>
    refine absurd h (scan_room hne hroom ?_)
    simp only [scanFuel, hroom, Option.getD_some]
    omega

theorem unpackOne_ne_nil (w : Word) : unpackOne w ≠ [] := by simp [unpackOne]

theorem unpackTwo_ne_nil (w : Word) : unpackTwo w ≠ [] := by simp [unpackTwo]

/-! ### Plain strings -/

theorem addr_succ (a : Word) (j : Nat) : a + 1 + BitVec.ofNat 16 j = a + BitVec.ofNat 16 (j + 1) := by
  rw [BitVec.add_assoc, ← BitVec.ofNat_add_ofNat (x := j), BitVec.add_comm 1]
  rfl

/-- The loop over `n` non-zero words that are not KBSR appends their characters and goes on after them. -/
theorem scanString_words (n f : Nat) (a : Word) (s : State)
    (hnz : ∀ k, k < n → s.word (a + BitVec.ofNat 16 k) ≠ 0x0000)
    (hk : ∀ k, k < n → a + BitVec.ofNat 16 k ≠ Config.kbsr) (cs : List Byte)
    (hcs : cs = (List.range n).flatMap fun k => unpack (s.word (a + BitVec.ofNat 16 k)))
    (hr : s.sinkAccepts cs.length) :
    scanString unpack (n + f) a s = scanString unpack f (a + BitVec.ofNat 16 n)
      (s.setSink (s.sink ++ cs) (s.sinkRoom.map (· - cs.length))) := by
  induction n generalizing a s cs with
  | zero =>
    subst hcs
    simp
    rfl
  | succ n ih =>
    have h0 : a ≠ Config.kbsr := by simpa using hk 0 (by omega)
    have hw : s.word a ≠ 0 := by simpa using hnz 0 (by omega)
    have hz : a + BitVec.ofNat 16 0 = a := by simp
    rw [List.range_succ_eq_map, List.flatMap_cons, List.flatMap_map, hz] at hcs
    generalize hds : ((List.range n).flatMap fun k => unpack (s.word (a + BitVec.ofNat 16 k.succ))) = ds at hcs
    subst hcs
    have hacc : s.sinkAccepts (unpack (s.word a)).length := fun m hm => by
      have := hr m hm
      simp only [List.length_append] at this
      omega
    rw [Nat.succ_add, scanString_more _ (memRead_of_ne h0) hw (emitAll_of_accepts hacc),
      ih (a + 1) _ (fun k hk' => by rw [addr_succ]; exact hnz (k + 1) (by omega))
        (fun k hk' => by rw [addr_succ]; exact hk (k + 1) (by omega)) ds ?_ ?_, addr_succ]
    · congr 1
      simp only [State.setSink, List.append_assoc, Option.map_map, List.length_append]
      congr 1
      congr 1
      funext m
      simp only [Function.comp_apply]
      omega
    · rw [← hds]
      simp only [addr_succ]
      rfl
    · intro m hm
      simp only [State.setSink_sinkRoom, Option.map_eq_some_iff] at hm
      obtain ⟨k, hk, rfl⟩ := hm
      have := hr k hk
      simp only [List.length_append] at this
      omega

/-- Over `n` non-zero words that are not KBSR, a sink with room for too few characters keeps those it has room for. -/
theorem scanString_words_rejected (n f : Nat) (a : Word) (s : State)
    (hnz : ∀ k, k < n → s.word (a + BitVec.ofNat 16 k) ≠ 0x0000)
    (hk : ∀ k, k < n → a + BitVec.ofNat 16 k ≠ Config.kbsr) (cs : List Byte)
    (hcs : cs = (List.range n).flatMap fun k => unpack (s.word (a + BitVec.ofNat 16 k)))
    (m : Nat) (hr : s.sinkRoom = some m) (hm : m < cs.length) :
    scanString unpack (n + f) a s = .fault (.fatalIO { input := s.input, sink := s.sink ++ cs.take m }) := by
  induction n generalizing a s cs m with
  | zero =>
    subst hcs
    exact absurd hm (Nat.not_lt_zero m)
  | succ n ih =>
    have h0 : a ≠ Config.kbsr := by simpa using hk 0 (by omega)
    have hw : s.word a ≠ 0 := by simpa using hnz 0 (by omega)
    have hz : a + BitVec.ofNat 16 0 = a := by simp
    rw [List.range_succ_eq_map, List.flatMap_cons, List.flatMap_map, hz] at hcs
    generalize hds : ((List.range n).flatMap fun k => unpack (s.word (a + BitVec.ofNat 16 k.succ))) = ds at hcs
    subst hcs
    rw [Nat.succ_add]
    by_cases hfit : m < (unpack (s.word a)).length
    · rw [scanString_rejected _ (memRead_of_ne h0) hw (emitAll_of_room hr hfit),
        List.take_append_of_le_length (Nat.le_of_lt hfit)]
    · rw [List.length_append] at hm
      have hacc : s.sinkAccepts (unpack (s.word a)).length := fun k hk' => by
        rw [hr] at hk'
        cases hk'
        omega
      rw [scanString_more _ (memRead_of_ne h0) hw (emitAll_of_accepts hacc),
        ih (a + 1) _ (fun k hk' => by rw [addr_succ]; exact hnz (k + 1) (by omega))
          (fun k hk' => by rw [addr_succ]; exact hk (k + 1) (by omega)) ds ?_ (m - (unpack (s.word a)).length)
          (by simp [hr]) (by omega)]
      · simp only [State.setSink_input, State.setSink_sink, List.append_assoc, List.take_append,
          List.take_of_length_le (Nat.not_lt.mp hfit)]
      · rw [← hds]
        simp only [addr_succ]
        rfl

/-- A run of addresses that does not meet KBSR is shorter than the address space. -/
theorem length_lt_of_ne_kbsr {n : Nat} {a : Word} (hk : ∀ k, k < n → a + BitVec.ofNat 16 k ≠ Config.kbsr) :
    n < 65536 := by
  by_contra h
  exact hk (Config.kbsr - a).toNat (by have := (Config.kbsr - a).isLt; omega) (addr_from a _)

/-- The loop looks at no register. -/
theorem scanString_setReg (f : Nat) (a : Word) (s : State) (r : Reg) (v : Word) :
    scanString unpack f a (s.setReg r v) = andThen (scanString unpack f a s) fun t => .next (t.setReg r v) := by
  induction f generalizing a s with
  | zero => rfl
  | succ f ih =>
    simp only [scanString, memRead_setReg]
    cases memRead a s with
    | next p =>
      simp only [andThen_next]
      split
      · rfl
      · rw [emitAll_setReg]
        cases emitAll (unpack p.1) p.2 with
        | next t => simp only [andThen_next, ih]
        | fault => rfl
        | refused => rfl
    | fault => rfl
    | refused => rfl

end Sys2Proof.Machine
end

