-- ==== Sys2Proof/Laws/Exec.lean ====
section
/-! SUPPORT. What each meaning that can do more than one thing leaves when it answers a next state, and the addresses
and the branch condition in the terms of the spec's tables. -/

namespace Sys2Proof.Machine

/-! ### Addresses and the branch condition -/

theorem pcRelative_eq (off : BitVec 9) (s : State) : pcRelative off s = s.pc + off.signExtend 16 := by
  rw [pcRelative, sext_eq_signExtend (by decide) (by decide)]

theorem pcRelativeLong_eq (off : BitVec 11) (s : State) : pcRelativeLong off s = s.pc + off.signExtend 16 := by
  rw [pcRelativeLong, sext_eq_signExtend (by decide) (by decide)]

theorem basePlusOffset_eq (base : Reg) (off : BitVec 6) (s : State) :
    basePlusOffset base off s = s.reg base + off.signExtend 16 := by
  rw [basePlusOffset, sext_eq_signExtend (by decide) (by decide)]

/-- The branch is taken exactly when some bit is 1 in the mask and in `cond` (R141). -/
theorem branchTaken_iff (mask : BitVec 3) (s : State) :
    branchTaken mask s = true ↔ ∃ k, k < 3 ∧ mask.getLsbD k = true ∧ s.cond.getLsbD k = true := by
  unfold branchTaken
  rw [bne_iff_ne, ne_eq, ← not_iff_not, not_not]
  constructor
  · rintro h ⟨k, hk, h1, h2⟩
    have h3 := congrArg (BitVec.getLsbD · k) h
    simp only [BitVec.getLsbD_and, h1, BitVec.getLsbD_extractLsb', hk, decide_true, Nat.zero_add, h2,
      Bool.and_self] at h3
    exact absurd h3 (by change ¬ (true = BitVec.getLsbD (0#3) k); simp)
  · intro h
    apply BitVec.eq_of_getLsbD_eq
    intro i hi
    by_cases h1 : mask.getLsbD i = true <;> by_cases h2 : s.cond.getLsbD i = true
    · exact absurd ⟨i, hi, h1, h2⟩ h
    all_goals simp_all

/-! ### Loads and STI -/

theorem loadInto_of_read {a v : Word} {s s1 : State} (dr : Reg) (h : memRead a s = .next (v, s1)) :
    loadInto dr a s = .next (writeResult dr v s1) := by simp [loadInto, h]

theorem loadInto_of_fault {a : Word} {s : State} {f : Fault} (dr : Reg) (h : memRead a s = .fault f) :
    loadInto dr a s = .fault f := by simp [loadInto, h]

theorem loadInto_next {dr : Reg} {a : Word} {s t : State} (h : loadInto dr a s = .next t) :
    ∃ v s1, memRead a s = .next (v, s1) ∧ t = writeResult dr v s1 := by
  obtain ⟨⟨v, s1⟩, e, h⟩ := andThen_eq_next.mp h
  cases h
  exact ⟨v, s1, e, rfl⟩

theorem execLdi_next {dr : Reg} {off : BitVec 9} {s t : State} (h : execLdi dr off s = .next t) :
    ∃ ptr s1 v s2, memRead (pcRelative off s) s = .next (ptr, s1) ∧ memRead ptr s1 = .next (v, s2) ∧
      t = writeResult dr v s2 := by
  obtain ⟨⟨ptr, s1⟩, e, h⟩ := andThen_eq_next.mp h
  obtain ⟨v, s2, e', rfl⟩ := loadInto_next h
  exact ⟨ptr, s1, v, s2, e, e', rfl⟩

theorem execSti_next {sr : Reg} {off : BitVec 9} {s t : State} (h : execSti sr off s = .next t) :
    ∃ ptr s1, memRead (pcRelative off s) s = .next (ptr, s1) ∧ t = s1.memWrite ptr (s.reg sr) := by
  obtain ⟨⟨ptr, s1⟩, e, h⟩ := andThen_eq_next.mp h
  cases h
  exact ⟨ptr, s1, e, by rw [(memRead_frame e).reg]⟩

/-! ### TRAP -/

theorem execGetc_next {s t : State} (h : execGetc s = .next t) :
    ∃ c i, s.input.readChar = some (c, i) ∧ t = (s.setInput i).setReg 0 c := by
  rcases readChar_cases s with ⟨c, i, hr, e⟩ | ⟨_, e⟩ <;> simp only [execGetc, trapEntry_eq, e] at h <;> cases h
  exact ⟨c, i, hr, rfl⟩

theorem execOut_next {s t : State} (h : execOut s = .next t) :
    s.sinkAccepts 1 ∧ t = s.setSink (s.sink ++ [lowByte (s.reg 0)]) (s.sinkRoom.map (· - 1)) :=
  Emitted.of_emitAll h

theorem execIn_next {s t : State} (h : execIn s = .next t) :
    ∃ c i, s.input.readChar = some (c, i) ∧ s.sinkAccepts (Config.inPrompt.length + 1) ∧
      t = ((s.setInput i).setSink (s.sink ++ Config.inPrompt ++ [lowByte c])
        (s.sinkRoom.map (· - (Config.inPrompt.length + 1)))).setReg 0 c := by
  obtain ⟨u, e, h⟩ := andThen_eq_next.mp h
  obtain ⟨ha, rfl⟩ := Emitted.of_emitAll e
  obtain ⟨⟨c, v⟩, e', h⟩ := andThen_eq_next.mp h
  obtain ⟨u', e'', h⟩ := andThen_eq_next.mp h
  cases h
  rcases readChar_cases ((trapEntry s).setSink ((trapEntry s).sink ++ Config.inPrompt)
    ((trapEntry s).sinkRoom.map (· - Config.inPrompt.length))) with ⟨c', i, hr, e3⟩ | ⟨_, e3⟩ <;>
    rw [e3] at e' <;> cases e'
  obtain ⟨ha', rfl⟩ := Emitted.of_emitAll e''
  refine ⟨c, i, hr, fun n hn => ?_, ?_⟩
  · have h1 := ha n hn
    have h2 := ha' (n - Config.inPrompt.length) (by simp [hn])
    simp only [List.length_singleton] at h2
    omega
  · have hroom : (s.sinkRoom.map (· - Config.inPrompt.length)).map (· - 1) =
        s.sinkRoom.map (· - (Config.inPrompt.length + 1)) := by
      rw [Option.map_map]
      congr 1
    rw [← hroom]
    rfl

theorem execHalt_next {s t : State} (h : execHalt s = .next t) :
    s.sinkAccepts Config.haltNotice.length ∧
      t = (s.setSink (s.sink ++ Config.haltNotice) (s.sinkRoom.map (· - Config.haltNotice.length))).setRun .stopped := by
  obtain ⟨u, e, h⟩ := andThen_eq_next.mp h
  obtain ⟨ha, rfl⟩ := Emitted.of_emitAll e
  cases h
  exact ⟨ha, rfl⟩

theorem execPuts_frame {s t : State} (h : execPuts s = .next t) : ScanFrame s t := scanString_frame h

theorem execPutsp_frame {s t : State} (h : execPutsp s = .next t) : ScanFrame s t := scanString_frame h

/-! ### No meaning refuses -/

theorem loadInto_not_refused (dr : Reg) (a : Word) (s : State) (r : Refusal) : loadInto dr a s ≠ .refused r := by
  intro h
  rcases andThen_eq_refused.mp h with e | ⟨p, _, e⟩
  · exact memRead_not_refused _ _ _ e
  · cases e

theorem readChar_not_refused (s : State) (r : Refusal) : readChar s ≠ .refused r := by
  rcases readChar_cases s with ⟨c, h, _, e⟩ | ⟨_, e⟩ <;> simp [e]

theorem emitAll_not_refused (cs : List Byte) (s : State) (r : Refusal) : emitAll cs s ≠ .refused r := by
  rcases emitAll_cases cs s with ⟨_, e⟩ | ⟨_, _, _, e⟩ <;> simp [e]

theorem exec_not_refused (i : Instr) (s : State) (r : Refusal) : exec i s ≠ .refused r := by
  intro h
  cases i with
  | ld dr off => exact loadInto_not_refused _ _ _ _ h
  | ldr dr b off => exact loadInto_not_refused _ _ _ _ h
  | ldi dr off =>
    rcases andThen_eq_refused.mp h with e | ⟨p, _, e⟩
    · exact memRead_not_refused _ _ _ e
    · exact loadInto_not_refused _ _ _ _ e
  | sti dr off =>
    rcases andThen_eq_refused.mp h with e | ⟨p, _, e⟩
    · exact memRead_not_refused _ _ _ e
    · cases e
  | trapGetc =>
    rcases andThen_eq_refused.mp h with e | ⟨p, _, e⟩
    · exact readChar_not_refused _ _ e
    · cases e
  | trapOut => exact emitAll_not_refused _ _ _ h
  | trapPuts => exact scanString_not_refused _ _ _ _ h
  | trapPutsp => exact scanString_not_refused _ _ _ _ h
  | trapIn =>
    rcases andThen_eq_refused.mp h with e | ⟨p, _, e⟩
    · exact emitAll_not_refused _ _ _ e
    rcases andThen_eq_refused.mp e with e | ⟨⟨p, u⟩, _, e⟩
    · exact readChar_not_refused _ _ e
    rcases andThen_eq_refused.mp e with e | ⟨p, _, e⟩
    · exact emitAll_not_refused _ _ _ e
    · cases e
  | trapHalt =>
    rcases andThen_eq_refused.mp h with e | ⟨p, _, e⟩
    · exact emitAll_not_refused _ _ _ e
    · cases e
  | _ => cases h

/-! ### Which meanings fault -/

theorem loadInto_fault {dr : Reg} {a : Word} {s : State} {f : Fault} (h : loadInto dr a s = .fault f) :
    f = .inputWait := by
  rcases andThen_eq_fault.mp h with e | ⟨p, _, e⟩
  · exact memRead_fault e
  · cases e

theorem emitAll_fault {cs : List Byte} {s : State} {f : Fault} (h : emitAll cs s = .fault f) :
    ∃ left, f = .fatalIO left ∧ left.input = s.input ∧ SinkFilled s left := by
  rcases emitAll_cases cs s with ⟨_, e⟩ | ⟨_, _, _, e⟩ <;> rw [e] at h <;> cases h
  exact ⟨_, rfl, SinkFilled.of_emitAll e⟩

theorem readChar_fault {s : State} {f : Fault} (h : readChar s = .fault f) : f = .inputWait := by
  rcases readChar_cases s with ⟨_, _, _, e⟩ | ⟨_, e⟩ <;> rw [e] at h <;> cases h
  rfl

/-- All the ways IN can fault: it waits after an accepted prompt; the prompt is rejected, nothing read; the echo is
rejected, the character consumed (R175). -/
theorem execIn_fault {s : State} {f : Fault} (h : execIn s = .fault f) :
    f = .inputWait ∨
    (∃ n, s.sinkRoom = some n ∧ n < Config.inPrompt.length ∧
      f = .fatalIO { input := s.input, sink := s.sink ++ Config.inPrompt.take n }) ∨
    (∃ c i, s.input.readChar = some (c, i) ∧ s.sinkRoom = some Config.inPrompt.length ∧
      f = .fatalIO { input := i, sink := s.sink ++ Config.inPrompt }) := by
  rcases emitAll_cases Config.inPrompt s with ⟨ha, e⟩ | ⟨n, hr, hn, e⟩ <;>
    simp only [execIn, trapEntry_eq, e, andThen_next, andThen_fault] at h
  · rcases andThen_eq_fault.mp h with e | ⟨⟨c, u⟩, e, h⟩
    · exact .inl (readChar_fault e)
    rcases readChar_cases (s.setSink (s.sink ++ Config.inPrompt) (s.sinkRoom.map (· - Config.inPrompt.length))) with
      ⟨c', i, hc, e'⟩ | ⟨_, e'⟩ <;> rw [e'] at e <;> cases e
    rcases andThen_eq_fault.mp h with e | ⟨_, _, e⟩
    · rcases emitAll_cases [lowByte c] ((s.setSink (s.sink ++ Config.inPrompt)
        (s.sinkRoom.map (· - Config.inPrompt.length))).setInput i) with ⟨_, e'⟩ | ⟨n, hr, hn, e'⟩ <;>
        rw [emit, e'] at e <;> cases e
      obtain rfl : n = 0 := by simpa using hn
      obtain ⟨m, hm, hm'⟩ := Option.map_eq_some_iff.mp hr
      have := ha m hm
      exact .inr (.inr ⟨c, i, hc, by rw [hm, show m = Config.inPrompt.length by omega], by simp⟩)
    · cases e
  · cases h
    exact .inr (.inl ⟨n, hr, hn, rfl⟩)

/-- A meaning waits, or its sink rejects a character, or its string never ends. -/
theorem exec_fault {i : Instr} {s : State} {f : Fault} (h : exec i s = .fault f) :
    f = .inputWait ∨
    (∃ left, f = .fatalIO left ∧ i ∈ [Instr.trapOut, .trapPuts, .trapIn, .trapPutsp, .trapHalt] ∧ SinkFilled s left) ∨
    (f = .noEnd ∧ i ∈ [Instr.trapPuts, .trapPutsp]) := by
  have string {unpack : Word → List Byte} {i : Instr} (hi : i ∈ [Instr.trapPuts, .trapPutsp])
      (h : scanString unpack (scanFuel s) (s.reg 0) s = .fault f) :
      f = .inputWait ∨ (∃ left, f = .fatalIO left ∧
        i ∈ [Instr.trapOut, .trapPuts, .trapIn, .trapPutsp, .trapHalt] ∧ SinkFilled s left) ∨
      (f = .noEnd ∧ i ∈ [Instr.trapPuts, .trapPutsp]) := by
    cases f with
    | inputWait => exact .inl rfl
    | noEnd => exact .inr (.inr ⟨rfl, hi⟩)
    | fatalIO left => exact .inr (.inl ⟨left, rfl, by simp at hi ⊢; tauto, scanString_sinkFilled h⟩)
  cases i with
  | ld dr off => exact .inl (loadInto_fault h)
  | ldr dr b off => exact .inl (loadInto_fault h)
  | ldi dr off =>
    rcases andThen_eq_fault.mp h with e | ⟨p, _, e⟩
    · exact .inl (memRead_fault e)
    · exact .inl (loadInto_fault e)
  | sti dr off =>
    rcases andThen_eq_fault.mp h with e | ⟨p, _, e⟩
    · exact .inl (memRead_fault e)
    · cases e
  | trapGetc =>
    rcases andThen_eq_fault.mp h with e | ⟨p, _, e⟩
    · exact .inl (readChar_fault e)
    · cases e
  | trapOut =>
    obtain ⟨left, rfl, _, hf⟩ := emitAll_fault h
    exact .inr (.inl ⟨left, rfl, by simp, hf⟩)
  | trapPuts => exact string (by simp) h
  | trapPutsp => exact string (by simp) h
  | trapIn =>
    rcases execIn_fault h with rfl | ⟨n, hr, hn, rfl⟩ | ⟨c, i, _, hr, rfl⟩
    · exact .inl rfl
    · exact .inr (.inl ⟨_, rfl, by simp, _, rfl, by rw [hr, List.length_take, Nat.min_eq_left (Nat.le_of_lt hn)]⟩)
    · exact .inr (.inl ⟨_, rfl, by simp, _, rfl, hr⟩)
  | trapHalt =>
    rcases andThen_eq_fault.mp h with e | ⟨u, _, e⟩
    · obtain ⟨left, rfl, _, hf⟩ := emitAll_fault e
      exact .inr (.inl ⟨left, rfl, by simp, hf⟩)
    · cases e
  | _ => cases h

end Sys2Proof.Machine
end

