-- ==== Sys2Proof/Laws/Interface.lean ====
section
/-! SUPPORT. The image loader: bytes pair into words, words land at their addresses and nowhere else. -/

namespace Sys2Proof.Machine

/-- The bytes of a list of words, high byte first, pair back into the words (R57). -/
theorem imageWords_bytes (ws : List Word) :
    imageWords (ws.flatMap fun w => [w.extractLsb' 8 8, w.extractLsb' 0 8]) = some ws := by
  induction ws with
  | nil => rfl
  | cons w ws ih =>
    simp only [List.flatMap_cons, List.cons_append, List.nil_append, imageWords, ih, Option.map_some]
    congr 2
    apply BitVec.eq_of_getLsbD_eq
    intro i hi
    rw [BitVec.getLsbD_append]
    by_cases h8 : i < 8
    · simp [h8]
    · simp only [if_neg h8, BitVec.getLsbD_extractLsb', show i - 8 < 8 by omega, decide_true, Bool.true_and,
        show 8 + (i - 8) = i by omega]

/-- An even number of bytes is half as many words. -/
theorem imageWords_even (bytes : List Byte) (h : bytes.length % 2 = 0) :
    ∃ ws, imageWords bytes = some ws ∧ ws.length = bytes.length / 2 := by
  fun_induction imageWords bytes with
  | case1 => simp
  | case2 => simp at h
  | case3 hi lo b ih =>
    obtain ⟨ws, h1, h2⟩ := ih (by simp at h; omega)
    exact ⟨_, by rw [h1]; rfl, by simp; omega⟩

/-- An odd number of bytes is no words. -/
theorem imageWords_odd (bytes : List Byte) (h : bytes.length % 2 ≠ 0) : imageWords bytes = none := by
  fun_induction imageWords bytes with
  | case1 => simp at h
  | case2 => rfl
  | case3 hi lo b ih =>
    rw [ih (by simp at h; omega)]
    rfl

/-- An address no word is stored at keeps its word. -/
theorem read_storeWords_other (m : Memory) (o : Word) (ws : List Word) (a : Word)
    (h : ∀ k, k < ws.length → o + BitVec.ofNat 16 k ≠ a) : (storeWords m o ws).read a.toNat = m.read a.toNat := by
  induction ws generalizing m o with
  | nil => rfl
  | cons w ws ih =>
    rw [storeWords, ih _ _ (fun k hk => by rw [addr_succ]; exact h (k + 1) (by simpa using hk)), Memory.read_write_ne]
    intro he
    exact h 0 (by simp) (by simpa using (BitVec.eq_of_toNat_eq he).symm)

/-- The last word stored at an address is the one it holds. -/
theorem read_storeWords_at (m : Memory) (o : Word) (ws : List Word) (k : Nat) (w : Word) (h : ws[k]? = some w)
    (hl : ∀ j, k < j → j < ws.length → o + BitVec.ofNat 16 j ≠ o + BitVec.ofNat 16 k) :
    (storeWords m o ws).read (o + BitVec.ofNat 16 k).toNat = w := by
  induction ws generalizing m o k with
  | nil => simp at h
  | cons x ws ih =>
    cases k with
    | zero =>
      simp only [List.getElem?_cons_zero, Option.some.injEq] at h
      subst h
      rw [storeWords, read_storeWords_other _ _ _ _
        (fun j hj => by rw [addr_succ]; exact hl (j + 1) (by omega) (by simpa using hj))]
      simp
    | succ k =>
      rw [storeWords, ← addr_succ]
      refine ih _ _ _ (by simpa using h) fun j hj hj' => ?_
      rw [addr_succ, addr_succ]
      exact hl (j + 1) (by omega) (by simpa using hj')

theorem loadImage_bytes (o : Word) (ws : List Word) {s : State} (h : s.run = .stopped) :
    loadImage ((o :: ws).flatMap fun w => [w.extractLsb' 8 8, w.extractLsb' 0 8]) s =
      .next (s.setMem (storeWords s.mem o ws)) := by
  simp only [loadImage, whileStopped, h, imageWords_bytes]

theorem whileStopped_stopped {s : State} (h : s.run = .stopped) (f : State → Part State) :
    whileStopped s f = f s := by simp [whileStopped, h]

theorem whileStopped_running {s : State} (h : s.run = .running) (f : State → Part State) :
    whileStopped s f = .refused .notStopped := by simp [whileStopped, h]

end Sys2Proof.Machine
end

