-- ==== Sys2Proof/Laws/PerInstr.lean ====
section
/-! SUPPORT. The family `RoundTrip`: decoding the word an instruction is encoded as gives the instruction back, one
lemma for each constructor, each computed from its format's field lemma (Sys2Proof/Laws/Encoding.lean). -/

namespace Sys2Proof.Laws.RoundTrip

/-- Decoding the encoded instruction gives it back. -/
def Statement (i : Instr) : Prop := i.wf = true → decode (encode i) = .ok i

/-- The opcode numbers are what the decoder's case split compares. -/
theorem decode_of_opcode {w : Word} {op : BitVec 4} (h : opcodeOf w = op) : decode w = decodeOp op.toNat w := by
  rw [decode, h]

theorem br (cond : BitVec 3) (off : BitVec 9) : Statement (.br cond off) := fun _ => by
  have h := fields_3_9 Config.opcBr cond off
  rw [decode_of_opcode (w := encode (.br cond off)) h.1, decodeOp_opcBr]
  simp [encode, h.2.1, h.2.2.2]

theorem addReg (dr sr1 sr2 : Reg) : Statement (.addReg dr sr1 sr2) := fun _ => by
  have h := fields_3_3_3_3 Config.opcAdd (regBits dr) (regBits sr1) 0b000#3 (regBits sr2)
  rw [decode_of_opcode (w := encode (.addReg dr sr1 sr2)) h.1, decodeOp_opcAdd]
  simp [encode, h.2.1, h.2.2.1, h.2.2.2.1, h.2.2.2.2]

theorem addImm (dr sr1 : Reg) (imm : BitVec 5) : Statement (.addImm dr sr1 imm) := fun _ => by
  have h := fields_3_3_1_5 Config.opcAdd (regBits dr) (regBits sr1) 0b1#1 imm
  rw [decode_of_opcode (w := encode (.addImm dr sr1 imm)) h.1, decodeOp_opcAdd]
  simp [encode, h.2.1, h.2.2.1, h.2.2.2.1, h.2.2.2.2]

theorem ld (dr : Reg) (off : BitVec 9) : Statement (.ld dr off) := fun _ => by
  have h := fields_3_9 Config.opcLd (regBits dr) off
  rw [decode_of_opcode (w := encode (.ld dr off)) h.1, decodeOp_opcLd]
  simp [encode, h.2.2.1, h.2.2.2]

theorem st (sr : Reg) (off : BitVec 9) : Statement (.st sr off) := fun _ => by
  have h := fields_3_9 Config.opcSt (regBits sr) off
  rw [decode_of_opcode (w := encode (.st sr off)) h.1, decodeOp_opcSt]
  simp [encode, h.2.2.1, h.2.2.2]

theorem jsr (off : BitVec 11) : Statement (.jsr off) := fun _ => by
  have h := fields_1_11 Config.opcJsr 0b1#1 off
  rw [decode_of_opcode (w := encode (.jsr off)) h.1, decodeOp_opcJsr]
  simp [encode, h.2.1, h.2.2]

theorem jsrr (base : Reg) : Statement (.jsrr base) := fun _ => by
  have h := fields_3_3_6 Config.opcJsr 0b000#3 (regBits base) 0b000000#6
  have hl := longBit_3_3_6 Config.opcJsr 0b000#3 (regBits base) 0b000000#6
  rw [decode_of_opcode (w := encode (.jsrr base)) h.1, decodeOp_opcJsr]
  simp [encode, h.2.2.1, hl]

theorem andReg (dr sr1 sr2 : Reg) : Statement (.andReg dr sr1 sr2) := fun _ => by
  have h := fields_3_3_3_3 Config.opcAnd (regBits dr) (regBits sr1) 0b000#3 (regBits sr2)
  rw [decode_of_opcode (w := encode (.andReg dr sr1 sr2)) h.1, decodeOp_opcAnd]
  simp [encode, h.2.1, h.2.2.1, h.2.2.2.1, h.2.2.2.2]

theorem andImm (dr sr1 : Reg) (imm : BitVec 5) : Statement (.andImm dr sr1 imm) := fun _ => by
  have h := fields_3_3_1_5 Config.opcAnd (regBits dr) (regBits sr1) 0b1#1 imm
  rw [decode_of_opcode (w := encode (.andImm dr sr1 imm)) h.1, decodeOp_opcAnd]
  simp [encode, h.2.1, h.2.2.1, h.2.2.2.1, h.2.2.2.2]

theorem ldr (dr base : Reg) (off : BitVec 6) : Statement (.ldr dr base off) := fun _ => by
  have h := fields_3_3_6 Config.opcLdr (regBits dr) (regBits base) off
  rw [decode_of_opcode (w := encode (.ldr dr base off)) h.1, decodeOp_opcLdr]
  simp [encode, h.2.1, h.2.2.1, h.2.2.2]

theorem str (sr base : Reg) (off : BitVec 6) : Statement (.str sr base off) := fun _ => by
  have h := fields_3_3_6 Config.opcStr (regBits sr) (regBits base) off
  rw [decode_of_opcode (w := encode (.str sr base off)) h.1, decodeOp_opcStr]
  simp [encode, h.2.1, h.2.2.1, h.2.2.2]

theorem rti : Statement .rti := fun _ => by
  have h := fields_12 Config.opcRti 0#12
  rw [decode_of_opcode (w := encode .rti) h, decodeOp_opcRti]

theorem notReg (dr sr : Reg) : Statement (.notReg dr sr) := fun _ => by
  have h := fields_3_3_6 Config.opcNot (regBits dr) (regBits sr) 0b111111#6
  rw [decode_of_opcode (w := encode (.notReg dr sr)) h.1, decodeOp_opcNot]
  simp [encode, h.2.1, h.2.2.1]

theorem ldi (dr : Reg) (off : BitVec 9) : Statement (.ldi dr off) := fun _ => by
  have h := fields_3_9 Config.opcLdi (regBits dr) off
  rw [decode_of_opcode (w := encode (.ldi dr off)) h.1, decodeOp_opcLdi]
  simp [encode, h.2.2.1, h.2.2.2]

theorem sti (sr : Reg) (off : BitVec 9) : Statement (.sti sr off) := fun _ => by
  have h := fields_3_9 Config.opcSti (regBits sr) off
  rw [decode_of_opcode (w := encode (.sti sr off)) h.1, decodeOp_opcSti]
  simp [encode, h.2.2.1, h.2.2.2]

theorem jmp (base : Reg) : Statement (.jmp base) := fun _ => by
  have h := fields_3_3_6 Config.opcJmp 0b000#3 (regBits base) 0b000000#6
  rw [decode_of_opcode (w := encode (.jmp base)) h.1, decodeOp_opcJmp]
  simp [encode, h.2.2.1]

theorem res : Statement .res := fun _ => by
  have h := fields_12 Config.opcRes 0#12
  rw [decode_of_opcode (w := encode .res) h, decodeOp_opcRes]

theorem lea (dr : Reg) (off : BitVec 9) : Statement (.lea dr off) := fun _ => by
  have h := fields_3_9 Config.opcLea (regBits dr) off
  rw [decode_of_opcode (w := encode (.lea dr off)) h.1, decodeOp_opcLea]
  simp [encode, h.2.2.1, h.2.2.2]

theorem trapGetc : Statement .trapGetc := fun _ => by decide

theorem trapOut : Statement .trapOut := fun _ => by decide

theorem trapPuts : Statement .trapPuts := fun _ => by decide

theorem trapIn : Statement .trapIn := fun _ => by decide

theorem trapPutsp : Statement .trapPutsp := fun _ => by decide

theorem trapHalt : Statement .trapHalt := fun _ => by decide

theorem trapOther (v : Byte) : Statement (.trapOther v) := fun hv => by
  have h := fields_4_8 Config.opcTrap 0#4 v
  have hd : decodeTrap v = .trapOther v := by
    simp only [Instr.wf, namedVectors, List.contains_cons, List.contains_nil, Bool.or_false, Bool.not_eq_true',
      Bool.or_eq_false_iff, beq_eq_false_iff_ne] at hv
    simp [decodeTrap, hv]
  rw [decode_of_opcode (w := encode (.trapOther v)) h.1, decodeOp_opcTrap]
  simp [encode, h.2, hd]

end Sys2Proof.Laws.RoundTrip
end

