-- ==== Sys2Proof/Laws/Step.lean ====
section
/-! SUPPORT. The cycle said once: what the fetch leaves, that dispatching on a word runs the decoded instruction, and
what a step does with the outcome. -/

namespace Sys2Proof.Machine

/-! ### Decoding -/

theorem decode_of_field {w : Word} {op : BitVec 4} (h : w.extractLsb' 12 4 = op) : decode w = decodeOp op.toNat w := by
  rw [decode, opcodeOf, h]

/-- The sixteen opcode numbers are all there are (R90). -/
theorem opcode_cases (op : BitVec 4) :
    op = Config.opcBr ∨ op = Config.opcAdd ∨ op = Config.opcLd ∨ op = Config.opcSt ∨ op = Config.opcJsr ∨
    op = Config.opcAnd ∨ op = Config.opcLdr ∨ op = Config.opcStr ∨ op = Config.opcRti ∨ op = Config.opcNot ∨
    op = Config.opcLdi ∨ op = Config.opcSti ∨ op = Config.opcJmp ∨ op = Config.opcRes ∨ op = Config.opcLea ∨
    op = Config.opcTrap := by
  revert op
  decide

/-- Decoding never fails. -/
theorem decode_total (w : Word) : ∃ i, decode w = .ok i := by
  unfold decode
  rcases opcode_cases (opcodeOf w) with h | h | h | h | h | h | h | h | h | h | h | h | h | h | h | h <;> rw [h]
  · exact ⟨_, decodeOp_opcBr w⟩
  · exact ⟨_, decodeOp_opcAdd w⟩
  · exact ⟨_, decodeOp_opcLd w⟩
  · exact ⟨_, decodeOp_opcSt w⟩
  · exact ⟨_, decodeOp_opcJsr w⟩
  · exact ⟨_, decodeOp_opcAnd w⟩
  · exact ⟨_, decodeOp_opcLdr w⟩
  · exact ⟨_, decodeOp_opcStr w⟩
  · exact ⟨_, decodeOp_opcRti w⟩
  · exact ⟨_, decodeOp_opcNot w⟩
  · exact ⟨_, decodeOp_opcLdi w⟩
  · exact ⟨_, decodeOp_opcSti w⟩
  · exact ⟨_, decodeOp_opcJmp w⟩
  · exact ⟨_, decodeOp_opcRes w⟩
  · exact ⟨_, decodeOp_opcLea w⟩
  · exact ⟨_, decodeOp_opcTrap w⟩

/-- Dispatching on a word runs the instruction it decodes to. -/
theorem dispatch_of_decode {w : Word} {i : Instr} (h : decode w = .ok i) (s : State) :
    dispatch (opcodeOf w).toNat w s = exec i s := by
  rw [decode] at h
  simp [dispatch, h]

/-! ### The fetch -/

/-- The PC advance as one update of `pc` (R111). -/
theorem advancePc_eq (s : State) :
    advancePc s = s.setPc (if s.pc.toNat < Config.maxAddress.toNat then s.pc + 1 else s.pc) := by
  unfold advancePc
  by_cases h : s.pc < Config.maxAddress
  · rw [if_pos h, if_pos (BitVec.lt_def.mp h)]
  · rw [if_neg h, if_neg fun h' => h (BitVec.lt_def.mpr h')]
    rfl

/-- A fetch away from KBSR. -/
theorem fetch_of_ne {s : State} (h : s.pc ≠ Config.kbsr) : fetch s = .next (s.word s.pc, advancePc s) := by
  simp [fetch, memRead_of_ne h]

/-- A fetch is a read and the PC advance. -/
theorem fetch_of_read {s s1 : State} {w : Word} (h : memRead s.pc s = .next (w, s1)) :
    fetch s = .next (w, advancePc s1) := by
  simp [fetch, h]

/-- All a fetch can do. -/
theorem fetch_cases (s : State) :
    (∃ w s1, memRead s.pc s = .next (w, s1) ∧ fetch s = .next (w, advancePc s1)) ∨
    (s.pc = Config.kbsr ∧ s.keyReady = true ∧ s.input.readChar = none ∧ fetch s = .fault .inputWait) := by
  rcases memRead_cases s.pc s with ⟨_, e⟩ | ⟨_, _, e⟩ | ⟨_, _, c, h, _, e⟩ | ⟨hp, hk, hr, e⟩
  · exact .inl ⟨_, _, e, fetch_of_read e⟩
  · exact .inl ⟨_, _, e, fetch_of_read e⟩
  · exact .inl ⟨_, _, e, fetch_of_read e⟩
  · exact .inr ⟨hp, hk, hr, by simp [fetch, e]⟩

/-! ### The cycle and the step -/

theorem cycle_of_fetch {s s1 : State} {w : Word} {i : Instr} (h : fetch s = .next (w, s1)) (hd : decode w = .ok i) :
    cycle s = exec i s1 := by
  unfold cycle
  rw [h]
  exact dispatch_of_decode hd s1

theorem step_running {s : State} (h : s.run = .running) : step s = holdWhileWaiting s (cycle s) := by simp [step, h]

theorem step_stopped {s : State} (h : s.run = .stopped) : step s = .next s := by simp [step, h]

/-- A Running step that goes on either ran the decoded instruction on the fetched state or was held. -/
theorem step_cases {s t : State} (h : step s = .next t) :
    t = s ∨ ∃ w s1 i, s.run = .running ∧ fetch s = .next (w, s1) ∧ decode w = .ok i ∧ exec i s1 = .next t := by
  cases hr : s.run with
  | stopped =>
    rw [step_stopped hr] at h
    cases h
    exact .inl rfl
  | running =>
    rw [step_running hr] at h
    rcases fetch_cases s with ⟨w, s1, _, e⟩ | ⟨_, _, _, e⟩
    · obtain ⟨i, hi⟩ := decode_total w
      rw [cycle_of_fetch e hi] at h
      cases hx : exec i (advancePc s1) with
      | next u =>
        rw [hx] at h
        cases h
        exact .inr ⟨w, _, i, rfl, e, hi, hx⟩
      | fault f =>
        rw [hx] at h
        cases f <;> cases h
        exact .inl rfl
      | refused r =>
        rw [hx] at h
        cases h
    · simp only [cycle, e, andThen_fault] at h
      cases h
      exact .inl rfl

/-- A step that faults ran the decoded instruction, which faulted so, and did not wait. -/
theorem step_fault {s : State} {f : Fault} (h : step s = .fault f) :
    ∃ w s1 i, fetch s = .next (w, s1) ∧ decode w = .ok i ∧ exec i s1 = .fault f ∧ f ≠ .inputWait := by
  cases hr : s.run with
  | stopped => rw [step_stopped hr] at h; cases h
  | running =>
    rw [step_running hr] at h
    rcases fetch_cases s with ⟨w, u, _, e⟩ | ⟨_, _, _, e⟩
    · obtain ⟨i, hi⟩ := decode_total w
      rw [cycle_of_fetch e hi] at h
      refine ⟨w, _, i, e, hi, ?_⟩
      cases hx : exec i (advancePc u) with
      | next t => rw [hx] at h; cases h
      | refused r => rw [hx] at h; cases h
      | fault g => rw [hx] at h; cases g <;> cases h <;> exact ⟨rfl, by simp⟩
    · simp [cycle, e, holdWhileWaiting] at h

/-- A step that holds the state holds it for any number of steps. -/
theorem run_of_held {s : State} (h : step s = .next s) (n : Nat) : Sys2Proof.core.run n s = .next s := by
  induction n with
  | zero => rfl
  | succ n ih =>
    have hc : Sys2Proof.core.step s = .next s := h
    simp only [Host.Core.run, hc, ih]

end Sys2Proof.Machine
end

