-- ==== Sys2Proof/Tests/Slice0.lean ====
section
/-! SUPPORT. The model's own tests. Expected results come from the spec's encodings (spec/30_encoding.md R81 to R98, the
examples of spec/41_operate.md to spec/46_reserved.md) and from spec/95_test_vectors.md (S and V numbers in the
comments). The theorems named test_witness_<Statement> show, for each statement that has hypotheses, concrete values
that meet them. -/

namespace Sys2Proof.Tests

open Sys2Proof.Machine

/-! ### Helpers -/

/-- "At `a`" of spec/95_test_vectors.md: `pc = a`, the word at `a`, Running, everything else as after reset. -/
def at_ (a w : Word) : State := ((State.reset.setPc a).memWrite a w).setRun .running

/-- A host that says a key is there and delivers `c`. -/
def withKey (c : Word) (s : State) : State := s.setInput { keyAnswers := [true], chars := [c], held := none }

/-- A host that says a key is there and delivers nothing. -/
def withStuckKey (s : State) : State := s.setInput { keyAnswers := [true], chars := [], held := none }

/-- A sink that has room for `n` more characters. -/
def withRoom (n : Nat) (s : State) : State := s.setSink s.sink (some n)

/-- The step goes on and leaves a state with the property. -/
def after (s : State) (p : State → Bool) : Bool :=
  match step s with
  | .next t => p t
  | .fault _ => false
  | .refused _ => false

/-- The step ends in the fault. -/
def faults (s : State) (f : Fault) : Bool :=
  match step s with
  | .next _ => false
  | .fault g => g == f
  | .refused _ => false

/-- The word decodes to the instruction. -/
def decodesTo (w : Word) (i : Instr) : Bool :=
  match decode w with
  | .ok j => j == i
  | .error _ => false

/-! ### WellFormed: the table's TRAP_other is no named vector (R96, R97) -/

theorem test_wf_refuses_named_vectors :
    (Instr.trapOther 0x20).wf = false ∧ (Instr.trapOther 0x21).wf = false ∧ (Instr.trapOther 0x22).wf = false ∧
    (Instr.trapOther 0x23).wf = false ∧ (Instr.trapOther 0x24).wf = false ∧ (Instr.trapOther 0x25).wf = false := by
  decide

theorem test_wf_accepts_neighbours : (Instr.trapOther 0x1F).wf = true ∧ (Instr.trapOther 0x26).wf = true := by decide

/-! ### Decoding: words written out bit by bit from the formats of R81 and the encodings of R98 -/

theorem test_decode_br : decodesTo 0b0000_010_000000010#16 (.br 0b010 2) = true := by decide
theorem test_decode_addReg : decodesTo 0b0001_010_000_0_00_001#16 (.addReg 2 0 1) = true := by decide
theorem test_decode_addImm : decodesTo 0b0001_001_000_1_11111#16 (.addImm 1 0 0b11111) = true := by decide
theorem test_decode_ld : decodesTo 0b0010_100_000000010#16 (.ld 4 2) = true := by decide
theorem test_decode_st : decodesTo 0b0011_011_000000101#16 (.st 3 5) = true := by decide
theorem test_decode_jsr : decodesTo 0b0100_1_11111111110#16 (.jsr 0x7FE) = true := by decide
theorem test_decode_jsrr : decodesTo 0b0100_0_00_111_000000#16 (.jsrr 7) = true := by decide
theorem test_decode_andReg : decodesTo 0b0101_010_000_0_00_001#16 (.andReg 2 0 1) = true := by decide
theorem test_decode_andImm : decodesTo 0b0101_000_000_1_10000#16 (.andImm 0 0 0b10000) = true := by decide
theorem test_decode_ldr : decodesTo 0b0110_001_110_111111#16 (.ldr 1 6 0b111111) = true := by decide
theorem test_decode_str : decodesTo 0b0111_001_010_000001#16 (.str 1 2 1) = true := by decide
theorem test_decode_rti : decodesTo 0b1000_111111111111#16 .rti = true := by decide
theorem test_decode_not : decodesTo 0b1001_001_000_111111#16 (.notReg 1 0) = true := by decide
theorem test_decode_ldi : decodesTo 0b1010_000_000000001#16 (.ldi 0 1) = true := by decide
theorem test_decode_sti : decodesTo 0b1011_000_000000101#16 (.sti 0 5) = true := by decide
theorem test_decode_jmp : decodesTo 0b1100_000_010_000000#16 (.jmp 2) = true := by decide
theorem test_decode_res : decodesTo 0b1101_000100100011#16 .res = true := by decide
theorem test_decode_lea : decodesTo 0b1110_000_111111111#16 (.lea 0 0x1FF) = true := by decide
theorem test_decode_getc : decodesTo 0b1111_0000_00100000#16 .trapGetc = true := by decide
theorem test_decode_out : decodesTo 0b1111_0000_00100001#16 .trapOut = true := by decide
theorem test_decode_puts : decodesTo 0b1111_0000_00100010#16 .trapPuts = true := by decide
theorem test_decode_in : decodesTo 0b1111_0000_00100011#16 .trapIn = true := by decide
theorem test_decode_putsp : decodesTo 0b1111_0000_00100100#16 .trapPutsp = true := by decide
theorem test_decode_halt : decodesTo 0b1111_1111_00100101#16 .trapHalt = true := by decide
theorem test_decode_trapOther : decodesTo 0b1111_0000_00100110#16 (.trapOther 0x26) = true := by decide

/-- The encoder against the words of R98, R99 and of the examples of R131 to R162. -/
theorem test_encode_words :
    encode .ret = 0xC1C0 ∧ encode .nop = 0x0000 ∧ encode (.addReg 2 0 1) = 0x1401 ∧ encode (.addImm 1 0 0x1F) = 0x123F ∧
    encode (.notReg 1 0) = 0x923F ∧ encode (.jsr 0x7FE) = 0x4FFE ∧ encode (.jsrr 3) = 0x40C0 ∧
    encode (.ldr 1 6 0x3F) = 0x63BF ∧ encode (.lea 0 6) = 0xE006 ∧ encode .trapHalt = 0xF025 ∧ encode .rti = 0x8000 := by
  decide

theorem test_decodeTableWord : decodeTableWord 16 0x123F = some (.addImm 1 0 0x1F) ∧ decodeTableWord 24 0x123F = none := by
  decide

/-! ### Sign extension: S1 and the examples of R88 -/

theorem test_signExtend :
    signExtend 5 0x000F = 0x000F ∧ signExtend 5 0x001F = 0xFFFF ∧ signExtend 5 0x0010 = 0xFFF0 ∧
    signExtend 16 0x8000 = 0x8000 ∧ signExtend 1 0x0001 = 0xFFFF ∧ signExtend 1 0x0000 = 0x0000 ∧
    signExtend 9 0x01FD = 0xFFFD ∧ signExtend 11 0x0400 = 0xFC00 ∧ signExtend 6 0x0020 = 0xFFE0 := by decide

/-! ### Fetch and PC -/

/-- V3: the fetch increment saturates. -/
theorem test_fetch_saturates : after (at_ 0xFFFF 0x1021) (fun t => t.reg 0 == 0x0001 && t.pc == 0xFFFF) = true := by
  decide

/-- V4: a fetch at KBSR polls and runs the word the poll leaves, which is RTI. -/
theorem test_fetch_polls :
    after (withKey 0x0041 (at_ 0xFE00 0x1021)) (fun t => t.pc == 0xFE01 && t.reg 0 == 0x0000 &&
      t.word 0xFE00 == 0x8000 && t.word 0xFE02 == 0x0041 && t.input.chars.isEmpty) = true := by decide

/-- V5: no key, so the word fetched is `0x0000`. -/
theorem test_fetch_polls_no_key :
    after (at_ 0xFE00 0x1021) (fun t => t.pc == 0xFE01 && t.reg 0 == 0x0000 && t.word 0xFE00 == 0x0000) = true := by
  decide

/-! ### Operate -/

/-- V10. -/
theorem test_addReg :
    after (((at_ 0x3000 0x1401).setReg 0 0x0003).setReg 1 0x0004)
      (fun t => t.reg 2 == 0x0007 && t.cond == 0b001 && t.pc == 0x3001) = true := by decide

/-- V14: ignored bits 4:3. -/
theorem test_addReg_ignored_bits :
    after (((at_ 0x3000 0x1019).setReg 0 0x0003).setReg 1 0x0004) (fun t => t.reg 0 == 0x0007) = true := by decide

/-- S4. -/
theorem test_addImm :
    after ((at_ 0x3000 0x123F).setReg 0 0x0005) (fun t => t.reg 1 == 0x0004 && t.cond == 0b001 && t.reg 0 == 0x0005) =
      true := by decide

/-- V11: no overflow indication. -/
theorem test_addImm_overflow :
    after ((at_ 0x3000 0x1021).setReg 0 0x7FFF) (fun t => t.reg 0 == 0x8000 && t.cond == 0b100) = true := by decide

/-- V15. -/
theorem test_andReg :
    after (((at_ 0x3000 0x5401).setReg 0 0xFF0F).setReg 1 0x0FF0) (fun t => t.reg 2 == 0x0F00 && t.cond == 0b001) =
      true := by decide

/-- V18: the immediate is sign-extended. -/
theorem test_andImm :
    after ((at_ 0x3000 0x5030).setReg 0 0xABCD) (fun t => t.reg 0 == 0xABC0 && t.cond == 0b100) = true := by decide

/-- V16. -/
theorem test_andImm_zero :
    after ((at_ 0x3000 0x5020).setReg 0 0xABCD) (fun t => t.reg 0 == 0x0000 && t.cond == 0b010) = true := by decide

/-- V19. -/
theorem test_not : after ((at_ 0x3000 0x923F).setReg 0 0x00FF) (fun t => t.reg 1 == 0xFF00 && t.cond == 0b100) = true := by
  decide

/-- V20: ignored bits 5:0. -/
theorem test_not_ignored_bits :
    after ((at_ 0x3000 0x9200).setReg 0 0xFFFF) (fun t => t.reg 1 == 0x0000 && t.cond == 0b010) = true := by decide

/-! ### Control -/

/-- V34: a branch target wraps. -/
theorem test_br_wraps : after ((at_ 0xFFFE 0x0E01).setCond 0b001) (fun t => t.pc == 0x0000) = true := by decide

/-- V32: no flag set, so not even BRnzp is taken. -/
theorem test_br_no_flag : after (at_ 0x3000 0x0E05) (fun t => t.pc == 0x3001) = true := by decide

/-- V36. -/
theorem test_jmp : after ((at_ 0x3000 0xC080).setReg 2 0x4000) (fun t => t.pc == 0x4000) = true := by decide

/-- V37. -/
theorem test_ret :
    after ((at_ 0x3000 0xC1C0).setReg 7 0x3003) (fun t => t.pc == 0x3003 && t.reg 7 == 0x3003) = true := by decide

/-- V39. -/
theorem test_jsr : after (at_ 0x3002 0x4FFE) (fun t => t.reg 7 == 0x3003 && t.pc == 0x3001) = true := by decide

/-- V43. -/
theorem test_jsr_top : after (at_ 0xFFFF 0x4800) (fun t => t.reg 7 == 0xFFFF && t.pc == 0xFFFF) = true := by decide

/-- V41. -/
theorem test_jsrr :
    after ((at_ 0x3000 0x40C0).setReg 3 0x5000) (fun t => t.reg 7 == 0x3001 && t.pc == 0x5000) = true := by decide

/-- V42: the base is read after R7 was written. -/
theorem test_jsrr_r7 :
    after ((at_ 0x3000 0x41C0).setReg 7 0x5000) (fun t => t.reg 7 == 0x3001 && t.pc == 0x3001) = true := by decide

/-! ### Loads -/

/-- V50. -/
theorem test_ld :
    after ((at_ 0x3007 0x2802).memWrite 0x300A 0x00FF) (fun t => t.reg 4 == 0x00FF && t.cond == 0b001 && t.pc == 0x3008) =
      true := by decide

/-- V51: LD of its own word. -/
theorem test_ld_self : after (at_ 0x3000 0x21FF) (fun t => t.reg 0 == 0x21FF) = true := by decide

/-- V54: the address wraps and `DR` is the base. -/
theorem test_ldr :
    after (((at_ 0x3000 0x6241).setReg 1 0xFFFF).memWrite 0x0000 0x1234) (fun t => t.reg 1 == 0x1234) = true := by
  decide

/-- V53. -/
theorem test_ldr_negative :
    after (((at_ 0x3000 0x63BF).setReg 6 0x4000).memWrite 0x3FFF 0x8001) (fun t => t.reg 1 == 0x8001 && t.cond == 0b100) =
      true := by decide

/-- S5. -/
theorem test_ldi :
    after (((at_ 0x2FFF 0xA000).memWrite 0x3000 0x3004).memWrite 0x3004 0x0042)
      (fun t => t.reg 0 == 0x0042 && t.cond == 0b001 && t.pc == 0x3000) = true := by decide

/-- V59: the data read polls. -/
theorem test_ldi_polls :
    after (withKey 0x0061 ((at_ 0x3000 0xA001).memWrite 0x3002 0xFE00))
      (fun t => t.reg 0 == 0x8000 && t.cond == 0b100 && t.word 0xFE02 == 0x0061 && t.input.chars.isEmpty) = true := by
  decide

/-- V56. -/
theorem test_lea : after (at_ 0xFFFE 0xE001) (fun t => t.reg 0 == 0x0000 && t.cond == 0b010 && t.pc == 0xFFFF) = true := by
  decide

/-- V57. -/
theorem test_lea_top : after (at_ 0xFFFF 0xE000) (fun t => t.reg 0 == 0xFFFF && t.cond == 0b100) = true := by decide

/-! ### Stores -/

/-- V70. -/
theorem test_st :
    after (((at_ 0x3006 0x3605).setReg 3 0xFF00).setCond 0b010)
      (fun t => t.word 0x300C == 0xFF00 && t.pc == 0x3007 && t.cond == 0b010) = true := by decide

/-- V71: ST onto its own word. -/
theorem test_st_self :
    after ((at_ 0x3000 0x31FF).setReg 0 0xBEEF) (fun t => t.word 0x3000 == 0xBEEF && t.pc == 0x3001) = true := by decide

/-- V72. -/
theorem test_sti :
    after (((at_ 0x3005 0xB005).setReg 0 0x00FF).memWrite 0x300B 0x300A)
      (fun t => t.word 0x300A == 0x00FF && t.word 0x300B == 0x300A) = true := by decide

/-- V75: a store to KBSR is plain. -/
theorem test_sti_kbsr :
    after (withKey 0x0061 (((at_ 0x3000 0xB001).setReg 0 0x1234).memWrite 0x3002 0xFE00))
      (fun t => t.word 0xFE00 == 0x1234 && t.input.chars.length == 1) = true := by decide

/-- V73. -/
theorem test_str :
    after (((at_ 0x3000 0x7281).setReg 2 0x3009).setReg 1 0xFF00) (fun t => t.word 0x300A == 0xFF00) = true := by decide

/-- V74: the address wraps below zero, and a stored zero is a word like any other. -/
theorem test_str_wraps :
    after ((at_ 0x3000 0x7FFF).memWrite 0xFFFF 0x5555) (fun t => t.word 0xFFFF == 0x0000 && t.mem.wf) = true := by decide

/-! ### Traps and the no-operation opcodes -/

/-- V80. -/
theorem test_getc :
    after (withKey 0x0061 (((at_ 0x3000 0xF020).setCond 0b100).setReg 7 0x1111))
      (fun t => t.reg 0 == 0x0061 && t.cond == 0b100 && t.reg 7 == 0x1111 && t.sink.isEmpty && t.word 0xFE02 == 0x0000) =
      true := by decide

/-- R242: with no character the cycle is not performed. -/
theorem test_getc_waits : after (at_ 0x3000 0xF020) (fun t => t == at_ 0x3000 0xF020) = true := by decide

/-- V81. -/
theorem test_out :
    after ((at_ 0x3000 0xF021).setReg 0 0x0141) (fun t => t.sink == [0x41] && t.reg 0 == 0x0141) = true := by decide

/-- V91. -/
theorem test_out_rejected :
    faults (withRoom 0 ((at_ 0x3000 0xF021).setReg 0 0x0041)) (.fatalIO ⟨HostInput.idle, []⟩) = true := by decide

/-- R174, R179: what was emitted before the rejected character stays in the sink. -/
theorem test_puts_rejected :
    faults (withRoom 1 (((at_ 0x3000 0xF022).memWrite 0 0x0041).memWrite 1 0x0042)) (.fatalIO ⟨HostInput.idle, [0x41]⟩) =
      true := by decide

/-- V83: the address wraps. -/
theorem test_puts :
    after ((((at_ 0x3000 0xF022).setReg 0 0xFFFF).memWrite 0xFFFF 0x0041).memWrite 0x0000 0x0042)
      (fun t => t.sink == [0x41, 0x42] && t.reg 0 == 0xFFFF) = true := by decide

/-- V84: the read of KBSR polls and its zero ends the string. -/
theorem test_puts_polls :
    after ((((at_ 0x3000 0xF022).setReg 0 0xFDFF).memWrite 0xFDFF 0x0041).memWrite 0xFE00 0x0043)
      (fun t => t.sink == [0x41] && t.word 0xFE00 == 0x0000) = true := by decide

/-- V85, the register. -/
theorem test_in :
    after (withKey 0x0079 ((at_ 0x3000 0xF023).setCond 0b100)) (fun t => t.reg 0 == 0x0079 && t.cond == 0b100) = true := by
  decide

/-- V85, the sink: the prompt, whatever its text, then the echo. -/
theorem test_in_sink :
    ∃ t, step (withKey 0x0079 (at_ 0x3000 0xF023)) = .next t ∧ t.sink = Config.inPrompt ++ [0x79] := ⟨_, rfl, rfl⟩

/-- R175: a rejected echo leaves the prompt in the sink and the character consumed. -/
theorem test_in_echo_rejected :
    exec .trapIn (withRoom Config.inPrompt.length (withKey 0x0079 (at_ 0x3000 0xF023))) =
      .fault (.fatalIO ⟨⟨[true], [], none⟩, Config.inPrompt⟩) := by
  simp [exec, execIn, emit, emitAll, withRoom, withKey, readChar, HostInput.readChar, raise, State.hostSide]
  rfl

/-- V86. -/
theorem test_putsp :
    after ((((at_ 0x3000 0xF024).setReg 0 0x4000).memWrite 0x4000 0x6548).memWrite 0x4001 0x006C)
      (fun t => t.sink == [0x48, 0x65, 0x6C]) = true := by decide

/-- R176, R179: an accepted low byte stays when its high byte is rejected. -/
theorem test_putsp_rejected :
    faults (withRoom 1 ((at_ 0x3000 0xF024).memWrite 0 0x6548)) (.fatalIO ⟨HostInput.idle, [0x48]⟩) = true := by decide

/-- V87: a low byte of zero is emitted. -/
theorem test_putsp_zero_low :
    after ((((at_ 0x3000 0xF024).setReg 0 0x4000).memWrite 0x4000 0x4100).memWrite 0x4001 0x0041)
      (fun t => t.sink == [0x00, 0x41, 0x41]) = true := by decide

/-- V88. -/
theorem test_halt : after (at_ 0x3000 0xF025) (fun t => t.run == .stopped && t.pc == 0x3001) = true := by decide

/-- V89: ignored bits 11:8. -/
theorem test_halt_sink :
    ∃ t, step (at_ 0x3000 0xFF25) = .next t ∧ t.run = .stopped ∧ t.sink = Config.haltNotice := ⟨_, rfl, rfl, rfl⟩

/-- V90. -/
theorem test_trapOther : after (at_ 0x3000 0xF000) (fun t => t == (at_ 0x3000 0xF000).setPc 0x3001) = true := by decide

/-- V95. -/
theorem test_rti : after (at_ 0x3000 0x8FFF) (fun t => t == (at_ 0x3000 0x8FFF).setPc 0x3001) = true := by decide

/-- V96. -/
theorem test_res : after (at_ 0x3000 0xD123) (fun t => t == (at_ 0x3000 0xD123).setPc 0x3001) = true := by decide

/-! ### The host's side -/

/-- S3. -/
theorem test_loadImage :
    (match loadImage [0x30, 0x00, 0x12, 0x34, 0x56, 0x78] State.reset with
      | .next t => t.mem == [(0x3000, 0x1234), (0x3001, 0x5678)] && t.pc == 0x0000
      | .fault _ => false
      | .refused _ => false) = true := by decide

/-- The boot sequence of R232 with the image of S7 (a HALT at `0x3000`): one step stops it. -/
theorem test_boot :
    (match boot [] [[0x30, 0x00, 0xF0, 0x25]] (some 0x3000) State.reset with
      | .next t => after t (fun u => u.run == .stopped && u.pc == 0x3001)
      | .fault _ => false
      | .refused _ => false) = true := by decide

/-- S8: the dispatcher called with an opcode value of 16. -/
theorem test_badOpcode :
    ∃ t, dispatch 16 0x0000 (at_ 0x3000 0x0000) = .next t ∧ t.run = .stopped ∧
      status t = (.stopped, some ⟨16, 0x0000, Config.diagText 16 0x0000⟩) := ⟨_, rfl, rfl, rfl⟩

/-- The word placed for the next step is the one it runs, also at KBSR (log 35). -/
theorem test_withFetchWord :
    after (State.reset.withFetchWord 16 0x1021) (fun t => t.reg 0 == 0x0001) = true ∧
    after ((State.reset.setPc 0xFE00).withFetchWord 16 0x1021) (fun t => t.reg 0 == 0x0001) = true := by decide

/-! ### Witnesses: concrete values that meet the hypotheses of each statement, clause by clause -/

/-- A machine about to run whatever instruction: Running, everything else as after reset. -/
def ready : State := State.reset.setRun .running

theorem accepts (n : Nat) (s : State) (h : s.sinkRoom = none) : s.sinkAccepts n := fun _ h' => by rw [h] at h'; cases h'

theorem test_witness_DecodeEncodeRoundTrip :
    (Instr.trapOther 0x1F).wf = true ∧ (Instr.trapOther 0x26).wf = true ∧ (Instr.jsrr 7).wf = true := by decide

theorem test_witness_IgnoredBitsDoNotMatter :
    opcodeOf 0x1000 = Config.opcAdd ∧ (0x1000#16).getLsbD 5 = false ∧ opcodeOf 0x5018 = Config.opcAnd ∧
    (0x5018#16).getLsbD 5 = false ∧ opcodeOf 0x9000 = Config.opcNot ∧ opcodeOf 0xCFFF = Config.opcJmp ∧
    opcodeOf 0x47FF = Config.opcJsr ∧ (0x47FF#16).getLsbD 11 = false ∧ opcodeOf 0xFF25 = Config.opcTrap ∧
    opcodeOf 0x8FFF = Config.opcRti ∧ opcodeOf 0xD000 = Config.opcRes := by decide

theorem test_witness_BadOpcodeArmUnreachable : 16 ≤ 16 ∧ 16 ≤ 65535 := by decide

/-- The four outcomes the statement distinguishes, and a pc that is not KBSR. -/
theorem test_witness_StepRunsDecodedInstruction :
    (at_ 0x3000 0x8000).run = .running ∧ (at_ 0x3000 0x8000).pc ≠ Config.kbsr ∧
    (∃ w s1, fetch (at_ 0x3000 0x8000) = .next (w, s1) ∧ decode w = .ok .rti ∧ exec .rti s1 = .next s1) ∧
    (∃ w s1, fetch (at_ 0x3000 0xF020) = .next (w, s1) ∧ decode w = .ok .trapGetc ∧
      exec .trapGetc s1 = .fault .inputWait) ∧
    ∃ w s1, fetch (withRoom 0 (at_ 0x3000 0xF021)) = .next (w, s1) ∧ decode w = .ok .trapOut ∧
      Fault.fatalIO ⟨HostInput.idle, []⟩ ≠ .inputWait ∧ exec .trapOut s1 = .fault (.fatalIO ⟨HostInput.idle, []⟩) :=
  ⟨rfl, by decide, ⟨_, _, rfl, rfl, rfl⟩, ⟨_, _, rfl, rfl, rfl⟩, ⟨_, _, rfl, rfl, by decide, rfl⟩⟩

/-- Below the top, at the top, at KBSR with a key and without. -/
theorem test_witness_FetchAdvancesAndSaturates :
    (at_ 0xFFFE 0).readReady (at_ 0xFFFE 0).pc ∧ (at_ 0xFFFE 0).pc.toNat < Config.maxAddress.toNat ∧
    (at_ 0xFFFF 0).readReady (at_ 0xFFFF 0).pc ∧ Config.maxAddress.toNat ≤ (at_ 0xFFFF 0).pc.toNat ∧
    (at_ 0xFE00 0).readReady (at_ 0xFE00 0).pc ∧ (at_ 0xFE00 0).pc = Config.kbsr ∧
    (withKey 5 (at_ 0xFE00 0)).readReady (at_ 0xFE00 0).pc ∧ (withKey 5 (at_ 0xFE00 0)).keyReady = true := by decide

/-- The four kinds of outcome are met: on (and waiting), HALT, a rejected character; the fourth is
`test_string_without_end`. -/
theorem test_witness_CycleOutcomesAreClosed :
    (at_ 0x3000 0xF025).run = .running ∧ after (at_ 0x3000 0x1021) (fun t => t.run == .running) = true ∧
    after (at_ 0x3000 0xF020) (fun t => t.run == .running) = true ∧
    after (at_ 0x3000 0xF025) (fun t => t.run == .stopped) = true ∧
    faults (withRoom 0 (at_ 0x3000 0xF021)) (.fatalIO ⟨HostInput.idle, []⟩) = true := by decide

/-- At `0x3000` and at both ends of the pc clause. -/
theorem test_witness_HaltEndsRunAfterOneCycle :
    ∀ a ∈ [0x3000#16, 0xFFFE#16, 0xFFFF#16], (at_ a 0xF025).run = .running ∧ (at_ a 0xF025).pc ≠ Config.kbsr ∧
      decode ((at_ a 0xF025).word (at_ a 0xF025).pc) = .ok .trapHalt ∧
      (at_ a 0xF025).sinkAccepts Config.haltNotice.length := by
  intro a ha
  simp only [List.mem_cons, List.not_mem_nil, or_false] at ha
  rcases ha with rfl | rfl | rfl <;> exact ⟨rfl, by decide, rfl, accepts _ _ rfl⟩

theorem test_witness_RunConditionTestedBeforeFetch :
    (at_ 0x3000 0x8000).run = .running ∧
    (∃ w s1 t, fetch (at_ 0x3000 0x8000) = .next (w, s1) ∧ dispatch (opcodeOf w).toNat w s1 = .next t) ∧
    State.reset.run = .stopped := ⟨rfl, ⟨_, _, _, rfl, rfl⟩, rfl⟩

/-- The three signs, at the ends of their ranges. -/
theorem test_witness_FlagUpdateFollowsSign :
    (ready.reg 3).toInt = 0 ∧ ((ready.setReg 3 0x8000).reg 3).toInt < 0 ∧ ((ready.setReg 3 0xFFFF).reg 3).toInt < 0 ∧
    0 < ((ready.setReg 3 0x0001).reg 3).toInt ∧ 0 < ((ready.setReg 3 0x7FFF).reg 3).toInt := by decide

theorem test_witness_OnlySevenInstructionsWriteFlags :
    (∃ t, exec (.st 1 2) ready = .next t) ∧ flagDest (.st 1 2) = none ∧
    (∃ t, exec (.addImm 1 2 3) ready = .next t) ∧ flagDest (.addImm 1 2 3) = some 1 ∧ ready.cond = 0x0000 :=
  ⟨⟨_, rfl⟩, rfl, ⟨_, rfl⟩, rfl, rfl⟩

theorem test_witness_OnlyListedRegistersWritten :
    (∃ t, exec (.addImm 1 2 3) ready = .next t) ∧ 0 ∉ writesRegs (.addImm 1 2 3) ∧
    (∃ t, exec (.jsr 5) ready = .next t) ∧ 6 ∉ writesRegs (.jsr 5) := ⟨⟨_, rfl⟩, by decide, ⟨_, rfl⟩, by decide⟩

theorem test_witness_UnreadRegistersDoNotMatter :
    1 ∉ readsRegs (.addImm 1 2 3) ∧ 1 ∈ writesRegs (.addImm 1 2 3) ∧ 0 ∉ readsRegs (.addImm 1 2 3) ∧
    0 ∉ writesRegs (.addImm 1 2 3) ∧ 7 ∉ readsRegs (.jsrr 6) ∧ 7 ∈ writesRegs (.jsrr 6) := by decide

theorem test_witness_MemReadPlainAwayFromKbsr :
    (0xFDFF#16) ≠ Config.kbsr ∧ (0xFE01#16) ≠ Config.kbsr ∧ Config.kbdr ≠ Config.kbsr ∧ (0xFFFF#16) ≠ Config.kbsr := by
  decide

/-- No key; a key and its character; a key and no character. -/
theorem test_witness_KbsrReadPolls :
    ready.keyReady = false ∧ (withKey 0x0041 ready).keyReady = true ∧
    (∃ h, (withKey 0x0041 ready).input.keyAvailable.2.readChar = some (0x0041, h)) ∧
    (withStuckKey ready).keyReady = true ∧ ¬ (withStuckKey ready).hasChar :=
  ⟨rfl, rfl, ⟨_, rfl⟩, rfl, by decide⟩

theorem test_witness_MemoryFormIsCanonical :
    Memory.wf [] = true ∧ Memory.wf [(0, 1), (65535, 0xFFFF)] = true ∧
    ∀ a : Word, Memory.read [(0, 1), (65535, 0xFFFF)] a.toNat =
      Memory.read (Memory.write (Memory.write [] 65535 0xFFFF) 0 1) a.toNat := ⟨rfl, by decide, fun _ => rfl⟩

/-- A set flag and none; a step that goes on from each. -/
theorem test_witness_StepKeepsInvariant :
    (at_ 0x3000 0x1021).Inv ∧ (∃ t, step (at_ 0x3000 0x1021) = .next t) ∧ ((at_ 0x3000 0xF020).setCond 0b100).Inv ∧
    ∃ t, step ((at_ 0x3000 0xF020).setCond 0b100) = .next t := ⟨by decide, ⟨_, rfl⟩, by decide, ⟨_, rfl⟩⟩

theorem test_witness_ResetMeetsInvariant : Memory.wf [(0xFE00, 0x8000)] = true := by decide

theorem test_witness_OnlyStoresAndPollsChangeMemory :
    (∃ t, exec (.ld 1 2) ready = .next t) ∧ (∀ sr off, Instr.ld 1 2 ≠ .st sr off) ∧
    (∀ sr off, Instr.ld 1 2 ≠ .sti sr off) ∧ (∀ sr base off, Instr.ld 1 2 ≠ .str sr base off) ∧
    (0xFE01#16) ≠ Config.kbsr ∧ (0xFE01#16) ≠ Config.kbdr :=
  ⟨⟨_, rfl⟩, (by intro _ _ h; cases h), (by intro _ _ h; cases h), (by intro _ _ _ h; cases h), by decide, by decide⟩

/-- ST with offset 0, STI through a pointer to the next instruction, STR with the base at it. -/
theorem test_witness_StoredWordIsFetchedNext :
    ((∃ t, exec (.st 1 0) ready = .next t) ∧ pcRelative 0 ready = ready.pc ∧ ready.pc ≠ Config.kbsr) ∧
    ((∃ t, exec (.sti 1 1) ready = .next t) ∧ ∃ s1, memRead (pcRelative 1 ready) ready = .next (ready.pc, s1)) ∧
    (∃ t, exec (.str 1 2 0) ready = .next t) ∧ basePlusOffset 2 0 ready = ready.pc :=
  ⟨⟨⟨_, rfl⟩, by decide, by decide⟩, ⟨⟨_, rfl⟩, ⟨_, rfl⟩⟩, ⟨_, rfl⟩, by decide⟩

/-- The decoding hypotheses of the per-instruction statements: a word of each opcode, with each mode bit. -/
theorem test_witness_opcode_words :
    (0x1000#16).extractLsb' 12 4 = Config.opcAdd ∧ (0x1000#16).getLsbD 5 = false ∧
    (0x1FFF#16).extractLsb' 12 4 = Config.opcAdd ∧ (0x1FFF#16).getLsbD 5 = true ∧
    (0x5000#16).extractLsb' 12 4 = Config.opcAnd ∧ (0x5000#16).getLsbD 5 = false ∧
    (0x5FFF#16).extractLsb' 12 4 = Config.opcAnd ∧ (0x5FFF#16).getLsbD 5 = true ∧
    (0x9FFF#16).extractLsb' 12 4 = Config.opcNot ∧ (0x0FFF#16).extractLsb' 12 4 = Config.opcBr ∧
    (0xC000#16).extractLsb' 12 4 = Config.opcJmp ∧
    (0x4800#16).extractLsb' 12 4 = Config.opcJsr ∧ (0x4800#16).getLsbD 11 = true ∧
    (0x47FF#16).extractLsb' 12 4 = Config.opcJsr ∧ (0x47FF#16).getLsbD 11 = false ∧
    (0x2FFF#16).extractLsb' 12 4 = Config.opcLd ∧ (0xAFFF#16).extractLsb' 12 4 = Config.opcLdi ∧
    (0x6FFF#16).extractLsb' 12 4 = Config.opcLdr ∧ (0xEFFF#16).extractLsb' 12 4 = Config.opcLea ∧
    (0x3FFF#16).extractLsb' 12 4 = Config.opcSt ∧ (0xBFFF#16).extractLsb' 12 4 = Config.opcSti ∧
    (0x7FFF#16).extractLsb' 12 4 = Config.opcStr ∧ (0x8FFF#16).extractLsb' 12 4 = Config.opcRti ∧
    (0xDFFF#16).extractLsb' 12 4 = Config.opcRes := by decide

/-- The decoding hypotheses of the TRAP statements. -/
theorem test_witness_trap_words :
    (0xFF20#16).extractLsb' 12 4 = Config.opcTrap ∧ (0xFF20#16).extractLsb' 0 8 = Config.tvGetc ∧
    (0xF021#16).extractLsb' 0 8 = Config.tvOut ∧ (0xF022#16).extractLsb' 0 8 = Config.tvPuts ∧
    (0xF023#16).extractLsb' 0 8 = Config.tvIn ∧ (0xF024#16).extractLsb' 0 8 = Config.tvPutsp ∧
    (0xF025#16).extractLsb' 0 8 = Config.tvHalt ∧ (0xF01F#16).extractLsb' 0 8 ∉ namedVectors ∧
    (0xF026#16).extractLsb' 0 8 ∉ namedVectors := by decide

/-- Every mask and flag pair the two clauses of BR speak of: one shared bit, none. -/
theorem test_witness_BranchOnCondition :
    (∃ k, k < 3 ∧ (0b010#3).getLsbD k = true ∧ (ready.setCond 0b010).cond.getLsbD k = true) ∧
    ¬ (∃ k, k < 3 ∧ (0b101#3).getLsbD k = true ∧ (ready.setCond 0b010).cond.getLsbD k = true) := by decide

theorem test_witness_SubroutineCallThroughRegister : (6 : Reg) ≠ 7 ∧ (7 : Reg) = 7 ∧ (0 : Reg) ≠ 7 := by decide

/-- LD and LDR: a plain address, KBSR with no key, KBSR with a key; for STI and LDI the pointer's address. -/
theorem test_witness_LoadPcRelative :
    ready.readReady (ready.pc + (2#9).signExtend 16) ∧ ready.pc + (2#9).signExtend 16 ≠ Config.kbsr ∧
    (ready.setPc 0xFE01).readReady (0xFE01 + (0x1FF#9).signExtend 16) ∧
    0xFE01 + (0x1FF#9).signExtend 16 = Config.kbsr ∧ (withKey 5 ready).readReady Config.kbsr := by decide

theorem test_witness_LoadBaseOffset :
    ready.readReady (ready.reg 2 + (0x3F#6).signExtend 16) ∧ ready.reg 2 + (0x3F#6).signExtend 16 = 0xFFFF ∧
    (ready.setReg 2 0xFE00).readReady ((ready.setReg 2 0xFE00).reg 2 + (0#6).signExtend 16) ∧
    (ready.setReg 2 0xFE00).reg 2 + (0#6).signExtend 16 = Config.kbsr := by decide

/-- A plain pointer to a plain word, a pointer to KBSR, a pointer word that is KBSR. -/
theorem test_witness_LoadIndirect :
    (ready.readReady (ready.pc + (2#9).signExtend 16) ∧
      ∃ ptr s1, memRead (ready.pc + (2#9).signExtend 16) ready = .next (ptr, s1) ∧ ptr ≠ Config.kbsr ∧ s1.readReady ptr) ∧
    (∃ s1, memRead 2 (ready.memWrite 2 0xFE00) = .next (Config.kbsr, s1) ∧ s1.readReady Config.kbsr) ∧
    ∃ ptr s1, memRead Config.kbsr (withKey 5 ready) = .next (ptr, s1) ∧ s1.readReady ptr :=
  ⟨⟨by decide, _, _, rfl, by decide, by decide⟩, ⟨_, rfl, by decide⟩, _, _, rfl, by decide⟩

theorem test_witness_StoreIndirect :
    ready.readReady (ready.pc + (2#9).signExtend 16) ∧ ready.pc + (2#9).signExtend 16 ≠ Config.kbsr ∧
    (withKey 5 (ready.setPc 0xFE01)).readReady (0xFE01 + (0x1FF#9).signExtend 16) ∧
    0xFE01 + (0x1FF#9).signExtend 16 = Config.kbsr := by decide

/-- Both sides of the equivalences occur: a wait in the first read, and in the second read of LDI. -/
theorem test_witness_LoadsWaitWithTheirRead :
    ¬ (withStuckKey (ready.setPc 0xFE01)).readReady (0xFE01 + (0x1FF#9).signExtend 16) ∧
    (∃ s1, memRead 2 (withStuckKey (ready.memWrite 2 0xFE00)) = .next (Config.kbsr, s1) ∧ ¬ s1.readReady Config.kbsr) ∧
    ready.readReady 2 := ⟨by decide, ⟨_, rfl, by decide⟩, by decide⟩

theorem test_witness_GetcReadsOneCharacter :
    (∃ h, (withKey 0xFFFF ready).input.readChar = some (0xFFFF, h)) ∧ ¬ ready.hasChar := ⟨⟨_, rfl⟩, by decide⟩

theorem test_witness_OutEmitsLowByte :
    ready.sinkAccepts 1 ∧ (withRoom 1 ready).sinkAccepts 1 ∧ ¬ (withRoom 0 ready).sinkAccepts 1 :=
  ⟨accepts _ _ rfl, fun _ h => by cases h; decide, fun h => absurd (h 0 rfl) (by decide)⟩

/-- The empty string, a string of one word, and a string of one word that runs into KBSR; a full sink. -/
theorem test_witness_PutsWritesString :
    (ready.word (ready.reg 0 + BitVec.ofNat 16 0) = 0x0000 ∧ ready.reg 0 + BitVec.ofNat 16 0 ≠ Config.kbsr ∧
      ready.sinkAccepts 0) ∧
    (∀ k, k < 1 → (ready.memWrite 0 0x0041).word (ready.reg 0 + BitVec.ofNat 16 k) ≠ 0x0000) ∧
    (∀ k, k < 1 → ready.reg 0 + BitVec.ofNat 16 k ≠ Config.kbsr) ∧
    (withRoom 0 (ready.memWrite 0 0x0041)).sinkRoom = some 0 ∧
    (ready.memWrite 0 0x0041).word (ready.reg 0 + BitVec.ofNat 16 1) = 0x0000 ∧
    ((∀ k, k < 1 → ((ready.setReg 0 0xFDFF).memWrite 0xFDFF 0x0041).word (0xFDFF + BitVec.ofNat 16 k) ≠ 0x0000) ∧
      (∀ k, k < 1 → (ready.setReg 0 0xFDFF).reg 0 + BitVec.ofNat 16 k ≠ Config.kbsr) ∧
      (ready.setReg 0 0xFDFF).reg 0 + BitVec.ofNat 16 1 = Config.kbsr ∧
      (ready.setReg 0 0xFDFF).keyReady = false) :=
  ⟨⟨by decide, by decide, accepts _ _ rfl⟩, by decide, by decide, rfl, by decide, by decide, by decide, by decide, by decide⟩

/-- As for PUTS; a word with a high byte is two characters, of which a sink with room for one rejects the second. -/
theorem test_witness_PutspWritesPackedString :
    (∀ k, k < 1 → (ready.memWrite 0 0x6548).word (ready.reg 0 + BitVec.ofNat 16 k) ≠ 0x0000) ∧
    (∀ k, k < 1 → ready.reg 0 + BitVec.ofNat 16 k ≠ Config.kbsr) ∧
    ((List.range 1).flatMap fun k =>
      let w := (ready.memWrite 0 0x6548).word (ready.reg 0 + BitVec.ofNat 16 k)
      if w.extractLsb' 8 8 = 0x00 then [w.extractLsb' 0 8] else [w.extractLsb' 0 8, w.extractLsb' 8 8]) =
      [0x48#8, 0x65#8] ∧
    (withRoom 1 (ready.memWrite 0 0x6548)).sinkRoom = some 1 ∧ 1 < [0x48#8, 0x65#8].length ∧
    ready.sinkAccepts 2 ∧ (ready.memWrite 0 0x6548).word (ready.reg 0 + BitVec.ofNat 16 1) = 0x0000 ∧
    (ready.setReg 0 0xFE00).reg 0 + BitVec.ofNat 16 0 = Config.kbsr ∧ ready.keyReady = false :=
  ⟨by decide, by decide, by decide, rfl, by decide, accepts _ _ rfl, by decide, by decide, by decide⟩

/-- A rejected prompt is met whenever the prompt is not empty; a rejected echo with room for the prompt only; no
character; everything accepted. -/
theorem test_witness_InPromptsReadsAndEchoes :
    (0 < Config.inPrompt.length → ∃ n, (withRoom 0 ready).sinkRoom = some n ∧ n < Config.inPrompt.length) ∧
    (ready.sinkAccepts Config.inPrompt.length ∧ ¬ ready.hasChar) ∧
    ((∃ h, (withRoom Config.inPrompt.length (withKey 5 ready)).input.readChar = some (5, h)) ∧
      (withRoom Config.inPrompt.length (withKey 5 ready)).sinkAccepts Config.inPrompt.length ∧
      ¬ (withRoom Config.inPrompt.length (withKey 5 ready)).sinkAccepts (Config.inPrompt.length + 1)) ∧
    (∃ h, (withKey 5 ready).input.readChar = some (5, h)) ∧
    (withKey 5 ready).sinkAccepts (Config.inPrompt.length + 1) :=
  ⟨fun h => ⟨0, rfl, h⟩, ⟨accepts _ _ rfl, by decide⟩,
    ⟨⟨_, rfl⟩, fun _ h => by cases h; exact Nat.le_refl _,
      fun h => absurd (h Config.inPrompt.length rfl) (by omega)⟩, ⟨_, rfl⟩, accepts _ _ rfl⟩

/-- Accepted always; rejected by a full sink whenever the notice is not empty. -/
theorem test_witness_HaltNoticeThenStops :
    ready.sinkAccepts Config.haltNotice.length ∧
    (0 < Config.haltNotice.length → ∃ n, (withRoom 0 ready).sinkRoom = some n ∧ n < Config.haltNotice.length) :=
  ⟨accepts _ _ rfl, fun h => ⟨0, rfl, h⟩⟩

/-- A loop that ends. -/
theorem test_witness_StringLoopIsExact :
    Scan unpackOne (ready.reg 0) ready (.next ready) ∧ Scan unpackTwo (ready.reg 0) ready (.next ready) :=
  ⟨.zero rfl, .zero rfl⟩

/-- `m` before a host that holds a key whose code point is `0x8000`. -/
def heldKey (m : Memory) : State :=
  (ready.setMem m).setInput { keyAnswers := [], chars := [], held := some 0x8000 }

/-- Every word of memory `0x8000`. -/
def fullMemory : Memory := (List.range memWords).map fun k => (k, 0x8000)

theorem read_map_of_mem (v : Word) (l : List Nat) (a : Nat) (h : a ∈ l) :
    Memory.read (l.map fun k => (k, v)) a = v := by
  induction l with
  | nil => cases h
  | cons k l ih =>
    simp only [List.map_cons, Memory.read]
    split
    · rfl
    · rename_i hk
      exact ih ((List.mem_cons.mp h).resolve_left fun e => hk e.symm)

theorem fullMemory_read (a : Word) : fullMemory.read a.toNat = 0x8000 :=
  read_map_of_mem 0x8000 _ _ (List.mem_range.mpr (word_lt_memWords a))

/-- PUTS and PUTSP over a memory with no zero word, polls included, never end: the fault `noEnd` occurs. -/
theorem test_string_without_end :
    exec .trapPuts (heldKey fullMemory) = .fault .noEnd ∧ exec .trapPutsp (heldKey fullMemory) = .fault .noEnd := by
  have word := fullMemory_read
  revert word
  generalize fullMemory = m
  intro word
  have steady : Steady (heldKey m) 0x8000 := ⟨rfl, rfl, rfl, word _, word _, rfl⟩
  have nonzero (a : Word) : (heldKey m).word a ≠ 0x0000 := by
    have e : (heldKey m).word a = 0x8000 := word a
    rw [e]
    decide
  exact ⟨scan_steady _ steady nonzero, scan_steady _ steady nonzero⟩

theorem test_witness_TrapsLeavePcLinkAndFlags :
    Instr.trapOut ∈ [Instr.trapGetc, .trapOut, .trapPuts, .trapIn, .trapPutsp, .trapHalt] ∧
    (∃ t, exec .trapOut ready = .next t) ∧ Instr.trapOut ≠ .trapGetc ∧ Instr.trapOut ≠ .trapIn ∧
    (∃ t, exec (.trapOther 0x26) ready = .next t) ∧ ∃ t, exec .trapGetc (withKey 5 ready) = .next t :=
  ⟨by decide, ⟨_, rfl⟩, by decide, by decide, ⟨_, rfl⟩, ⟨_, rfl⟩⟩

theorem test_witness_SinkOnlyGrows :
    (∃ t, step (at_ 0x3000 0xF021) = .next t) ∧ ∃ t, step (withRoom 1 (at_ 0x3000 0xF021)) = .next t :=
  ⟨⟨_, rfl⟩, ⟨_, rfl⟩⟩

theorem test_witness_EmitOneAfterTheOther :
    (withRoom 0 ready).sinkRoom = some 0 ∧ ready.sinkRoom ≠ some 0 ∧ (withRoom 1 ready).sinkRoom ≠ some 0 := by decide

/-- OUT and IN end so, by exec and by step. -/
theorem test_witness_FatalIOKeepsWhatWasEmitted :
    (∃ left, exec .trapOut (withRoom 0 ready) = .fault (.fatalIO left)) ∧
    (∃ left, exec .trapIn (withRoom Config.inPrompt.length (withKey 0x0079 (at_ 0x3000 0xF023))) =
      .fault (.fatalIO left)) ∧
    ∃ left, step (withRoom 0 (at_ 0x3000 0xF021)) = .fault (.fatalIO left) :=
  ⟨⟨_, rfl⟩, ⟨_, test_in_echo_rejected⟩, ⟨_, rfl⟩⟩

theorem test_witness_SignExtendProperty :
    (0xFFFE#16).getLsbD (1 - 1) = false ∧ (0x0001#16).getLsbD (1 - 1) = true ∧ (0x7FFF#16).getLsbD (16 - 1) = false ∧
    (0x8000#16).getLsbD (16 - 1) = true ∧ 1 ≤ 1 ∧ 16 ≤ 16 := by decide

theorem test_witness_FieldsKeepSignedValue :
    1 ≤ 1 ∧ 1 ≤ 16 ∧ 16 ≤ 16 ∧ (sext (0x10#5)).toInt = -16 ∧ (sext (0x3FF#11)).toInt = 1023 := by decide

/-- The three ways to wait. -/
theorem test_witness_WaitingCycleIsHeld :
    ((withStuckKey (at_ 0xFE00 0)).run = .running ∧ ¬ (withStuckKey (at_ 0xFE00 0)).hasChar ∧
      (withStuckKey (at_ 0xFE00 0)).pc = Config.kbsr ∧ (withStuckKey (at_ 0xFE00 0)).keyReady = true) ∧
    (¬ (at_ 0x3000 0xF020).hasChar ∧ (at_ 0x3000 0xF020).pc ≠ Config.kbsr ∧
      decode ((at_ 0x3000 0xF020).word (at_ 0x3000 0xF020).pc) = .ok .trapGetc) ∧
    decode ((at_ 0x3000 0xF023).word (at_ 0x3000 0xF023).pc) = .ok .trapIn ∧
    (at_ 0x3000 0xF023).sinkAccepts Config.inPrompt.length :=
  ⟨by decide, ⟨by decide, by decide, rfl⟩, rfl, accepts _ _ rfl⟩

theorem test_witness_DeliveredCharacterEndsWait :
    ∀ a ∈ [0x3000#16, 0xFFFE#16, 0xFFFF#16], (at_ a 0xF020).run = .running ∧ ¬ (at_ a 0xF020).hasChar ∧
      (at_ a 0xF020).pc ≠ Config.kbsr ∧ decode ((at_ a 0xF020).word (at_ a 0xF020).pc) = .ok .trapGetc := by
  intro a ha
  simp only [List.mem_cons, List.not_mem_nil, or_false] at ha
  rcases ha with rfl | rfl | rfl <;> exact ⟨rfl, by decide, by decide, rfl⟩

theorem test_witness_ResetGivesStatedValues : State.reset.run = .stopped ∧ ready.run = .running := by decide

theorem test_witness_HostRequestsWhileStopped : State.reset.run = .stopped ∧ ready.run = .running := by decide

/-- The image of S3; its first word is not overwritten by its second. -/
theorem test_witness_LoadImagePlacesWords :
    [0x30#8, 0x00#8, 0x12#8, 0x34#8, 0x56#8, 0x78#8] =
      ([0x3000#16, 0x1234#16, 0x5678#16].flatMap fun w => [w.extractLsb' 8 8, w.extractLsb' 0 8]) ∧
    State.reset.run = .stopped ∧ [0x1234#16, 0x5678#16][0]? = some 0x1234#16 ∧
    (∀ j, 0 < j → j < 2 → (0x3000#16) + BitVec.ofNat 16 j ≠ 0x3000 + BitVec.ofNat 16 0) ∧
    ∀ k, k < 2 → (0x3000#16) + BitVec.ofNat 16 k ≠ 0x3002 :=
  ⟨by decide, rfl, rfl, fun j h h' => by have : j = 1 := by omega
                                         subst this; decide,
    by decide⟩

/-- No byte, one, two, three. -/
theorem test_witness_OnlyEvenImagesLoad :
    State.reset.run = .stopped ∧ ¬ (([] : List Byte).length % 2 = 0 ∧ 2 ≤ ([] : List Byte).length) ∧
    ¬ ([0x30#8].length % 2 = 0 ∧ 2 ≤ [0x30#8].length) ∧ ([0x30#8, 0x00#8].length % 2 = 0 ∧ 2 ≤ [0x30#8, 0x00#8].length) ∧
    ¬ ([0x30#8, 0x00#8, 0x12#8].length % 2 = 0 ∧ 2 ≤ [0x30#8, 0x00#8, 0x12#8].length) := by decide

end Sys2Proof.Tests
end

section
/-! The family of spec/20_memory.md: plain stores (R51) and the loader (R60). -/

namespace Sys2Proof.Machine

@[simp] theorem State.setMem_word (s : State) (m : Memory) (b : Word) : (s.setMem m).word b = m.read b.toNat := rfl

/-- Settles O15: the model's `memWrite` is a store at the one address, so the rule `wordStored` is the statement. -/
theorem memWriteIsPlainStore : Obligations.MemWriteIsPlainStore :=
  fun s a v => wordStored a v s

/-- Settles O59: the image loads as `storeWords` over the memory held, and only memory is set. A word of the image that
no later one overwrites is read back, and an address outside the image keeps its word. -/
theorem loadImagePlacesWords : Obligations.LoadImagePlacesWords := by
  rintro o ws s bytes rfl hs
  refine ⟨s.setMem (storeWords s.mem o ws), loadImage_bytes o ws hs, ?placed, ?others,
    fun _ => rfl, rfl, rfl, rfl, rfl, rfl, rfl, rfl⟩
  case placed =>
    intro k w hk hlast
    rw [State.setMem_word]
    exact read_storeWords_at s.mem o ws k w hk hlast
  case others =>
    intro a ha
    rw [State.setMem_word]
    exact read_storeWords_other s.mem o ws a ha

end Sys2Proof.Machine
end

section
/-! The family of spec/30_encoding.md: sign extension of any 16-bit word (R88). -/

namespace Sys2Proof.Machine

/-- The word that R87 ORs in: the bits from `n` up. -/
theorem getLsbD_ones_shiftLeft (n : Nat) {j : Nat} (hj : j < 16) :
    (0xFFFF#16 <<< n).getLsbD j = decide (n ≤ j) := by
  have hones : (0xFFFF#16) = BitVec.allOnes 16 := by decide
  have hlt : j - n < 16 := by omega
  rw [hones, BitVec.getLsbD_shiftLeft, BitVec.getLsbD_allOnes]
  simp only [hj, hlt, decide_true, Bool.true_and, Bool.and_true, ← decide_not, Nat.not_lt]

theorem signExtend_of_signBit_clear {n : Nat} {x : Word} (h : x.getLsbD (n - 1) = false) : signExtend n x = x := by
  simp [signExtend, h]

theorem getLsbD_signExtend_of_signBit_set {n : Nat} {x : Word} (h : x.getLsbD (n - 1) = true) {j : Nat} (hj : j < 16) :
    (signExtend n x).getLsbD j = (x.getLsbD j || decide (n ≤ j)) := by
  rw [signExtend, if_pos h, BitVec.getLsbD_or, getLsbD_ones_shiftLeft n hj]

/-- Settles O53: with the sign bit set, bit `j` of the result is bit `j` of `x` ORed with `n ≤ j`, which is 1 from
bit `n` up and changes nothing below. -/
theorem signExtendProperty : Obligations.SignExtendProperty := by
  intro x n _ hn
  refine ⟨signExtend_of_signBit_clear, fun hset => ⟨?ones, ?below⟩⟩
  case ones =>
    intro j hnj hj
    rw [getLsbD_signExtend_of_signBit_set hset hj, decide_eq_true hnj, Bool.or_true]
  case below =>
    intro j hjn
    rw [getLsbD_signExtend_of_signBit_set hset (by omega), decide_eq_false (by omega), Bool.or_false]

end Sys2Proof.Machine
end

section
/-! The family of spec/40_cycle.md: the fetch (R111), the HALT cycle (R116) and the flag update (R118). -/

namespace Sys2Proof.Machine

/-! ### The fetch -/

theorem advancePc_pc_of_lt {s : State} (h : s.pc.toNat < Config.maxAddress.toNat) : (advancePc s).pc = s.pc + 1 := by
  rw [advancePc_eq, State.setPc_pc, if_pos h]

theorem advancePc_pc_of_le {s : State} (h : Config.maxAddress.toNat ≤ s.pc.toNat) : (advancePc s).pc = s.pc := by
  rw [advancePc_eq, State.setPc_pc, if_neg (Nat.not_lt.mpr h)]

/-- The PC advance moves `pc` and nothing else (R111). -/
theorem advancePc_onlyPcMoved (s : State) : OnlyPcMoved s (advancePc s) := by
  rw [advancePc_eq]
  exact { regs := fun _ => rfl, cond := rfl, mem := fun _ => rfl, outside := ⟨rfl, rfl, rfl, rfl, rfl⟩ }

/-- A read yields the word that stands at its address afterwards, at KBSR the one the poll left (R52). -/
theorem word_of_memRead {a v : Word} {s t : State} (h : memRead a s = .next (v, t)) : t.word a = v := by
  rcases memRead_cases a s with ⟨_, e⟩ | ⟨rfl, _, e⟩ | ⟨rfl, _, c, i, _, e⟩ | ⟨_, _, _, e⟩ <;> rw [e] at h <;> cases h
  · rfl
  · exact polledNoKey_word_kbsr s
  · exact polledKey_word_kbsr s c i

/-- Settles O7: the read at `pc` yields a word, `pc` as it was, and the PC advance moves nothing but `pc`. -/
theorem fetchAdvancesAndSaturates : Obligations.FetchAdvancesAndSaturates := by
  intro s hready
  obtain ⟨w, s1, hread⟩ := memRead_of_ready hready
  have hpc : s1.pc = s.pc := (memRead_frame hread).pc
  obtain ⟨hregs, hcond, hmem, hout⟩ := advancePc_onlyPcMoved s1
  refine ⟨w, s1, advancePc s1, hread, fetch_of_read hread, ?below, ?top, hregs, hcond, hmem, hout,
    memRead_plain hread, ?kbsr⟩
  case below =>
    rw [← hpc]
    exact advancePc_pc_of_lt
  case top =>
    rw [← hpc]
    exact advancePc_pc_of_le
  case kbsr =>
    intro hk
    rw [hk] at hread
    exact ⟨memRead_kbsr hread, word_of_memRead hread⟩

/-! ### The HALT cycle -/

/-- A Running step is the decoded instruction's next state when it has one. -/
theorem step_of_exec_next {s s1 t : State} {w : Word} {i : Instr} (hrun : s.run = .running)
    (hf : fetch s = .next (w, s1)) (hd : decode w = .ok i) (hx : exec i s1 = .next t) : step s = .next t := by
  rw [step_running hrun, cycle_of_fetch hf hd, hx]
  rfl

/-- What HALT leaves when the sink accepts the notice (R177). -/
def State.halted (s : State) : State :=
  (s.setSink (s.sink ++ Config.haltNotice) (s.sinkRoom.map (· - Config.haltNotice.length))).setRun .stopped

theorem exec_trapHalt_of_accepts {s : State} (h : s.sinkAccepts Config.haltNotice.length) :
    exec .trapHalt s = .next s.halted := by
  change execHalt s = _
  rw [execHalt, trapEntry_eq, emitAll_of_accepts h]
  rfl

/-- Settles O9: the cycle advances `pc` and then halts, and a Stopped engine is held by every further step. -/
theorem haltEndsRunAfterOneCycle : Obligations.HaltEndsRunAfterOneCycle := by
  intro s hrun hpc hdecode haccepts
  obtain ⟨hregs, hcond, hmem, -, hdiag, hinput, hsink, hroom⟩ := advancePc_onlyPcMoved s
  have haccepts' : (advancePc s).sinkAccepts Config.haltNotice.length := by
    rw [State.sinkAccepts, hroom]
    exact haccepts
  have hstep : step s = .next (advancePc s).halted :=
    step_of_exec_next hrun (fetch_of_ne hpc) hdecode (exec_trapHalt_of_accepts haccepts')
  exact ⟨(advancePc s).halted, hstep, rfl, advancePc_pc_of_lt, hregs, hcond, hmem,
    congrArg (· ++ Config.haltNotice) hsink, hdiag, hinput, run_of_held (step_stopped rfl)⟩

/-! ### The flag update -/

/-- The sign bit is the two's-complement sign (R118). -/
theorem getLsbD_fifteen_eq_neg (v : Word) : v.getLsbD 15 = decide (v.toInt < 0) := by
  rw [← BitVec.msb_eq_toInt, BitVec.msb_eq_getLsbD_last]

theorem condOf_of_toInt_eq_zero {v : Word} (h : v.toInt = 0) : condOf v = Config.flZro := by
  have hv : v = 0x0000 := BitVec.eq_of_toInt_eq h
  rw [hv]
  exact condOf_zero

theorem condOf_of_toInt_neg {v : Word} (h : v.toInt < 0) : condOf v = Config.flNeg :=
  condOf_negative (by rw [getLsbD_fifteen_eq_neg, decide_eq_true h])

theorem condOf_of_toInt_pos {v : Word} (h : 0 < v.toInt) : condOf v = Config.flPos := by
  refine condOf_positive ?_ ?_
  · rintro rfl
    exact absurd h (by decide)
  · rw [getLsbD_fifteen_eq_neg, decide_eq_false (by omega)]

/-- The condition of a value is one of the bits 2:0, alone. -/
theorem condOf_eq_twoPow (v : Word) : ∃ k : Fin 3, condOf v = BitVec.twoPow 16 k := by
  rcases condOf_oneHot v with h | h | h
  · exact ⟨0, h⟩
  · exact ⟨1, h⟩
  · exact ⟨2, h⟩

/-- Settles O11: `setcc` sets the slot to the condition of the register's value, which follows the sign and is a power
of two below 8, and sets nothing else. -/
theorem flagUpdateFollowsSign : Obligations.FlagUpdateFollowsSign := by
  intro i s
  have hcond : (setcc i s).cond = condOf (s.reg i) := rfl
  rw [hcond]
  refine ⟨condOf_of_toInt_eq_zero, condOf_of_toInt_neg, condOf_of_toInt_pos, ?oneBit,
    fun _ => rfl, rfl, fun _ => rfl, rfl, rfl, rfl, rfl, rfl⟩
  case oneBit =>
    obtain ⟨k, hk⟩ := condOf_eq_twoPow (s.reg i)
    refine ⟨k, fun j => ?_⟩
    have hlt : k.val < 16 := by omega
    rw [hk, BitVec.getLsbD_twoPow, decide_eq_true hlt, Bool.true_and, decide_eq_decide]
    exact eq_comm

end Sys2Proof.Machine
end

section
/-! The family of spec/41_operate.md: ADD, AND and NOT (R131 to R135). -/

namespace Sys2Proof.Machine

/-! ### Which words are the operate instructions -/

section
variable {w : Word}

theorem decode_addReg (hop : w.extractLsb' 12 4 = Config.opcAdd) (hmode : w.getLsbD 5 = false) :
    decode w = .ok (.addReg (regField w 9) (regField w 6) (regField w 0)) := by
  rw [decode_of_field hop, decodeOp_opcAdd, modeBit, hmode, if_neg Bool.false_ne_true]

theorem decode_addImm (hop : w.extractLsb' 12 4 = Config.opcAdd) (hmode : w.getLsbD 5 = true) :
    decode w = .ok (.addImm (regField w 9) (regField w 6) (imm5Field w)) := by
  rw [decode_of_field hop, decodeOp_opcAdd, modeBit, hmode, if_pos rfl]

theorem decode_andReg (hop : w.extractLsb' 12 4 = Config.opcAnd) (hmode : w.getLsbD 5 = false) :
    decode w = .ok (.andReg (regField w 9) (regField w 6) (regField w 0)) := by
  rw [decode_of_field hop, decodeOp_opcAnd, modeBit, hmode, if_neg Bool.false_ne_true]

theorem decode_andImm (hop : w.extractLsb' 12 4 = Config.opcAnd) (hmode : w.getLsbD 5 = true) :
    decode w = .ok (.andImm (regField w 9) (regField w 6) (imm5Field w)) := by
  rw [decode_of_field hop, decodeOp_opcAnd, modeBit, hmode, if_pos rfl]

theorem decode_notReg (hop : w.extractLsb' 12 4 = Config.opcNot) :
    decode w = .ok (.notReg (regField w 9) (regField w 6)) := by
  rw [decode_of_field hop, decodeOp_opcNot]

end

/-! ### What they do: one written result -/

section
variable (dr sr1 sr2 : Reg) (imm5 : BitVec 5) (s : State)

theorem exec_addReg : exec (.addReg dr sr1 sr2) s = .next (writeResult dr (s.reg sr1 + s.reg sr2) s) := rfl

theorem exec_addImm :
    exec (.addImm dr sr1 imm5) s = .next (writeResult dr (s.reg sr1 + imm5.signExtend 16) s) := by
  rw [← sext_eq_signExtend (by decide) (by decide)]
  rfl

theorem exec_andReg : exec (.andReg dr sr1 sr2) s = .next (writeResult dr (s.reg sr1 &&& s.reg sr2) s) := rfl

theorem exec_andImm :
    exec (.andImm dr sr1 imm5) s = .next (writeResult dr (s.reg sr1 &&& imm5.signExtend 16) s) := by
  rw [← sext_eq_signExtend (by decide) (by decide)]
  rfl

theorem exec_notReg : exec (.notReg dr sr1) s = .next (writeResult dr (~~~ s.reg sr1) s) := rfl

end

/-- An instruction whose next state is a written result has the flags and the frame of one (R27). -/
theorem exists_resultWritten {i : Instr} {dr : Reg} {v : Word} {s : State}
    (h : exec i s = .next (writeResult dr v s)) : ∃ t, exec i s = .next t ∧ ResultWritten dr v s t :=
  ⟨writeResult dr v s, h, resultWritten dr v s⟩

/-! ### The obligations -/

/-- Settles O23: bit 5 clear selects the register form, whose written result is the sum. -/
theorem addRegisterMode : Obligations.AddRegisterMode :=
  ⟨fun _ => decode_addReg,
    fun dr sr1 sr2 s => exists_resultWritten (exec_addReg dr sr1 sr2 s)⟩

/-- Settles O24: bit 5 set selects the immediate form, whose written result is the sum with the sign-extended field. -/
theorem addImmediateMode : Obligations.AddImmediateMode :=
  ⟨fun _ => decode_addImm,
    fun dr sr1 imm5 s => exists_resultWritten (exec_addImm dr sr1 imm5 s)⟩

/-- Settles O25: bit 5 clear selects the register form, whose written result is the bitwise AND. -/
theorem andRegisterMode : Obligations.AndRegisterMode :=
  ⟨fun _ => decode_andReg,
    fun dr sr1 sr2 s => exists_resultWritten (exec_andReg dr sr1 sr2 s)⟩

/-- Settles O26: bit 5 set selects the immediate form, whose written result is the AND with the sign-extended field. -/
theorem andImmediateMode : Obligations.AndImmediateMode :=
  ⟨fun _ => decode_andImm,
    fun dr sr1 imm5 s => exists_resultWritten (exec_andImm dr sr1 imm5 s)⟩

/-- Settles O27: the opcode alone selects NOT, whose written result is the complement. -/
theorem notComplementsSource : Obligations.NotComplementsSource :=
  ⟨fun _ => decode_notReg, fun dr sr s => exists_resultWritten (exec_notReg dr sr s)⟩

end Sys2Proof.Machine
end

section
/-! The family of spec/42_control.md: BR, JMP and JSR (R141 to R143). -/

namespace Sys2Proof.Machine

/-! ### Which words are the control instructions -/

section
variable {w : Word}

theorem decode_br (hop : w.extractLsb' 12 4 = Config.opcBr) :
    decode w = .ok (.br (condField w) (pcOffset9Field w)) := by
  rw [decode_of_field hop, decodeOp_opcBr]

theorem decode_jmp (hop : w.extractLsb' 12 4 = Config.opcJmp) : decode w = .ok (.jmp (regField w 6)) := by
  rw [decode_of_field hop, decodeOp_opcJmp]

theorem decode_jsr (hop : w.extractLsb' 12 4 = Config.opcJsr) (hlong : w.getLsbD 11 = true) :
    decode w = .ok (.jsr (pcOffset11Field w)) := by
  rw [decode_of_field hop, decodeOp_opcJsr, longBit, hlong, if_pos rfl]

end

/-! ### What they do: one write to `pc`, after the link for JSR -/

section
variable (s : State)

/-- A branch that is not taken writes the incremented PC back, so both cases are one write to `pc` (R141). -/
theorem exec_br (mask : BitVec 3) (off : BitVec 9) :
    exec (.br mask off) s =
      .next (s.setPc (if branchTaken mask s then s.pc + off.signExtend 16 else s.pc)) := by
  rw [← pcRelative_eq]
  show Host.Outcome.next (if branchTaken mask s then s.setPc (pcRelative off s) else s) = _
  split
  · rfl
  · rfl

theorem exec_jmp (base : Reg) : exec (.jmp base) s = .next (s.setPc (s.reg base)) := rfl

theorem exec_jsr (off : BitVec 11) :
    exec (.jsr off) s = .next ((link s).setPc (s.pc + off.signExtend 16)) := by
  rw [← pcRelativeLong_eq]
  rfl

theorem setPc_onlyPcMoved (v : Word) : OnlyPcMoved s (s.setPc v) :=
  { regs := fun _ => rfl, cond := rfl, mem := fun _ => rfl, outside := ⟨rfl, rfl, rfl, rfl, rfl⟩ }

theorem link_reg_seven : (link s).reg 7 = s.pc := s.reg_setReg_self 7 s.pc

theorem link_reg_of_ne {r : Reg} (h : r ≠ 7) : (link s).reg r = s.reg r := s.reg_setReg_ne h s.pc

end

/-! ### The obligations -/

/-- Settles O28: `branchTaken_iff` reads the mask test bit for bit, and either way only `pc` is written. -/
theorem branchOnCondition : Obligations.BranchOnCondition := by
  refine ⟨fun _ => decode_br, fun mask off s => ⟨_, exec_br s mask off, setPc_onlyPcMoved s _, ?taken, ?untaken⟩⟩
  case taken =>
    intro h
    rw [State.setPc_pc, if_pos ((branchTaken_iff mask s).mpr h)]
  case untaken =>
    intro h
    rw [State.setPc_pc, if_neg (mt (branchTaken_iff mask s).mp h)]

/-- Settles O29: JMP is one write of the base register's value to `pc`. -/
theorem jumpThroughRegister : Obligations.JumpThroughRegister :=
  ⟨fun _ => decode_jmp, fun base s => ⟨_, exec_jmp s base, setPc_onlyPcMoved s _, rfl⟩⟩

/-- Settles O30: bit 11 set selects JSR, which links the incremented PC in R7 and then moves only `pc`. -/
theorem subroutineCallRelative : Obligations.SubroutineCallRelative := by
  refine ⟨fun _ => decode_jsr, fun off s => ⟨_, exec_jsr s off, link_reg_seven s, rfl, ?others⟩⟩
  exact ⟨fun _ => link_reg_of_ne s, rfl, fun _ => rfl, rfl, rfl, rfl, rfl, rfl⟩

end Sys2Proof.Machine
end

section
/-! The family of spec/43_load.md: LD and LEA (R150, R153). -/

namespace Sys2Proof.Machine

/-! ### Which words are LD and LEA -/

section
variable {w : Word}

theorem decode_ld (hop : w.extractLsb' 12 4 = Config.opcLd) :
    decode w = .ok (.ld (regField w 9) (pcOffset9Field w)) := by
  rw [decode_of_field hop, decodeOp_opcLd]

theorem decode_lea (hop : w.extractLsb' 12 4 = Config.opcLea) :
    decode w = .ok (.lea (regField w 9) (pcOffset9Field w)) := by
  rw [decode_of_field hop, decodeOp_opcLea]

end

/-! ### What they do: the word at the address, or the address, written as a result -/

section
variable (dr : Reg) (off : BitVec 9) (s : State)

theorem exec_ld : exec (.ld dr off) s = loadInto dr (s.pc + off.signExtend 16) s := by
  rw [← pcRelative_eq]
  rfl

theorem exec_lea : exec (.lea dr off) s = .next (writeResult dr (s.pc + off.signExtend 16) s) := by
  rw [← pcRelative_eq]
  rfl

end

/-- An instruction that loads from one address, when the read does not wait: the word read is a written result on the
state the read leaves, plain away from KBSR and the status word of the poll at it (R52, R53). -/
theorem exists_loaded {i : Instr} {dr : Reg} {ea : Word} {s : State} (h : exec i s = loadInto dr ea s)
    (hready : s.readReady ea) :
    ∃ v s1 t, memRead ea s = .next (v, s1) ∧ exec i s = .next t ∧ ResultWritten dr v s1 t ∧
      (ea ≠ Config.kbsr → v = s.word ea ∧ s1 = s) ∧ (ea = Config.kbsr → v = 0x8000 ∨ v = 0x0000) := by
  obtain ⟨v, s1, hread⟩ := memRead_of_ready hready
  refine ⟨v, s1, writeResult dr v s1, hread, h.trans (loadInto_of_read dr hread), resultWritten dr v s1,
    memRead_plain hread, ?kbsr⟩
  case kbsr =>
    rintro rfl
    exact memRead_kbsr hread

/-! ### The obligations -/

/-- Settles O32: LD is a load from the PC-relative address. -/
theorem loadPcRelative : Obligations.LoadPcRelative := by
  refine ⟨fun _ => decode_ld, ?loads⟩
  case loads =>
    rintro dr off s ea rfl hready
    exact exists_loaded (exec_ld dr off s) hready

/-- Settles O35: LEA writes the address itself as the result, on the state as it was. -/
theorem loadEffectiveAddress : Obligations.LoadEffectiveAddress :=
  ⟨fun _ => decode_lea, fun dr off s => exists_resultWritten (exec_lea dr off s)⟩

end Sys2Proof.Machine
end

section
/-! The family of spec/44_store.md: ST, STI and STR (R160 to R162). -/

namespace Sys2Proof.Machine

/-! ### Which words are the store instructions -/

section
variable {w : Word}

theorem decode_st (hop : w.extractLsb' 12 4 = Config.opcSt) :
    decode w = .ok (.st (regField w 9) (pcOffset9Field w)) := by
  rw [decode_of_field hop, decodeOp_opcSt]

theorem decode_sti (hop : w.extractLsb' 12 4 = Config.opcSti) :
    decode w = .ok (.sti (regField w 9) (pcOffset9Field w)) := by
  rw [decode_of_field hop, decodeOp_opcSti]

theorem decode_str (hop : w.extractLsb' 12 4 = Config.opcStr) :
    decode w = .ok (.str (regField w 9) (regField w 6) (offset6Field w)) := by
  rw [decode_of_field hop, decodeOp_opcStr]

end

/-! ### What they do: one store, after the read of the pointer for STI -/

section
variable (sr base : Reg) {s : State}

theorem exec_st (off : BitVec 9) (s : State) :
    exec (.st sr off) s = .next (s.memWrite (s.pc + off.signExtend 16) (s.reg sr)) := by
  rw [← pcRelative_eq]
  rfl

theorem exec_str (off : BitVec 6) (s : State) :
    exec (.str sr base off) s = .next (s.memWrite (s.reg base + off.signExtend 16) (s.reg sr)) := by
  rw [← basePlusOffset_eq]
  rfl

/-- The word STI stores is `SR` as it stood before the pointer was read: a read changes no register. -/
theorem exec_sti_of_read {off : BitVec 9} {ptr : Word} {s1 : State}
    (hread : memRead (s.pc + off.signExtend 16) s = .next (ptr, s1)) :
    exec (.sti sr off) s = .next (s1.memWrite ptr (s.reg sr)) := by
  have hsr : s1.reg sr = s.reg sr := (memRead_frame hread).reg sr
  change execSti sr off s = _
  rw [← hsr, execSti, pcRelative_eq, hread, andThen_next]

end

/-- An instruction whose next state is a store has the frame of one (R51). -/
theorem exists_wordStored {i : Instr} {a v : Word} {s s1 : State} (h : exec i s = .next (s1.memWrite a v)) :
    ∃ t, exec i s = .next t ∧ WordStored a v s1 t :=
  ⟨s1.memWrite a v, h, wordStored a v s1⟩

/-! ### The obligations -/

/-- Settles O36: ST is one store at the PC-relative address. -/
theorem storePcRelative : Obligations.StorePcRelative :=
  ⟨fun _ => decode_st, fun sr off s => exists_wordStored (exec_st sr off s)⟩

/-- Settles O37: STI is one store at the pointer, on the state its read leaves; the read is plain away from KBSR and
yields the status word of the poll at it (R52, R53). -/
theorem storeIndirect : Obligations.StoreIndirect := by
  refine ⟨fun _ => decode_sti, ?stores⟩
  case stores =>
    rintro sr off s pa rfl hready
    obtain ⟨ptr, s1, hread⟩ := memRead_of_ready hready
    obtain ⟨t, hexec, hstored⟩ := exists_wordStored (exec_sti_of_read sr hread)
    refine ⟨ptr, s1, t, hread, hexec, hstored, memRead_plain hread, ?kbsr⟩
    case kbsr =>
      intro hpa
      exact memRead_kbsr (hpa ▸ hread)

/-- Settles O38: STR is one store at the base register plus the offset; only memory is written, so the base keeps its
value. -/
theorem storeBaseOffset : Obligations.StoreBaseOffset :=
  ⟨fun _ => decode_str, fun sr base off s => exists_wordStored (exec_str sr base off s)⟩

end Sys2Proof.Machine
end

section
/-! The family of spec/46_reserved.md: RTI and RES (R190, R191). -/

namespace Sys2Proof.Machine

/-! ### Which words are the reserved instructions -/

section
variable {w : Word}

theorem decode_rti (hop : w.extractLsb' 12 4 = Config.opcRti) : decode w = .ok .rti := by
  rw [decode_of_field hop, decodeOp_opcRti]

theorem decode_res (hop : w.extractLsb' 12 4 = Config.opcRes) : decode w = .ok .res := by
  rw [decode_of_field hop, decodeOp_opcRes]

end

/-! ### What they do: nothing -/

theorem exec_rti (s : State) : exec .rti s = .next s := rfl

theorem exec_res (s : State) : exec .res s = .next s := rfl

/-! ### The obligation -/

/-- Settles O40: the opcode alone selects RTI or RES, and the meaning of either is the state it is given. -/
theorem rtiAndResDoNothing : Obligations.RtiAndResDoNothing :=
  ⟨fun _ => decode_rti, fun _ => decode_res, fun s => ⟨exec_rti s, exec_res s⟩⟩

end Sys2Proof.Machine
end

section
/-! What each of the 25 meanings can leave, said once: a part that changes no register, `pc` or flag, then at most one
final write. The invariants over every instruction and every step are read off that (10_state.md section 1). -/

namespace Sys2Proof.Machine

/-! ### The final write -/

/-- ST, STI and STR. -/
def isStore : Instr → Bool
  | .st _ _ => true
  | .sti _ _ => true
  | .str _ _ _ => true
  | _ => false

/-- BR, JMP, JSR and JSRR: the instructions that write `pc` (R140). -/
def redirectsPc : Instr → Bool
  | .br _ _ => true
  | .jmp _ => true
  | .jsr _ => true
  | .jsrr _ => true
  | _ => false

/-- The last write of instruction `i`, from the state `u` that its reads and emissions leave to its next state. Each
constructor says which instructions end with that write. -/
inductive FinalWrite (i : Instr) (u : State) : State → Prop where
  | nothing (flags : flagDest i = none) : FinalWrite i u u
  | result {d : Reg} (v : Word) (dest : flagDest i = some d) : FinalWrite i u (writeResult d v u)
  | word (a v : Word) (store : isStore i = true) (flags : flagDest i = none) : FinalWrite i u (u.memWrite a v)
  | pc (v : Word) (redirects : redirectsPc i = true) (flags : flagDest i = none) : FinalWrite i u (u.setPc v)
  | call (v : Word) (redirects : redirectsPc i = true) (links : writesRegs i = [7]) (flags : flagDest i = none) :
      FinalWrite i u ((link u).setPc v)
  | input (c : Word) (reads : i = .trapGetc ∨ i = .trapIn) : FinalWrite i u (u.setReg 0 c)
  | halt (halts : i = .trapHalt) : FinalWrite i u (u.setRun .stopped)

theorem ScanFrame.refl (s : State) : ScanFrame s s := (ReadFrame.refl s).toScan

theorem ScanFrame.reg {s u : State} (h : ScanFrame s u) (r : Reg) : u.reg r = s.reg r := by
  simp [State.reg, h.regs]

theorem ScanFrame.setInput (s : State) (h : HostInput) : ScanFrame s (s.setInput h) :=
  ⟨rfl, rfl, rfl, rfl, rfl, fun _ _ _ => rfl, id, [], by simp, fun _ _ => Nat.zero_le _, by simp⟩

theorem ScanFrame.setSink {s : State} {cs : List Byte} (h : s.sinkAccepts cs.length) :
    ScanFrame s (s.setSink (s.sink ++ cs) (s.sinkRoom.map (· - cs.length))) :=
  ScanFrame.of_emitAll (emitAll_of_accepts h)

/-- Every instruction that answers a next state has made its reads and emissions, then its final write. -/
theorem exec_next {i : Instr} {s t : State} (h : exec i s = .next t) : ∃ u, ScanFrame s u ∧ FinalWrite i u t := by
  cases i with
  | br mask off =>
    rw [exec_br] at h
    cases h
    exact ⟨s, .refl s, .pc _ rfl rfl⟩
  | jmp base => cases h; exact ⟨s, .refl s, .pc _ rfl rfl⟩
  | jsr off => cases h; exact ⟨s, .refl s, .call _ rfl rfl rfl⟩
  | jsrr base => cases h; exact ⟨s, .refl s, .call _ rfl rfl rfl⟩
  | addReg dr sr1 sr2 => cases h; exact ⟨s, .refl s, .result _ rfl⟩
  | addImm dr sr1 imm => cases h; exact ⟨s, .refl s, .result _ rfl⟩
  | andReg dr sr1 sr2 => cases h; exact ⟨s, .refl s, .result _ rfl⟩
  | andImm dr sr1 imm => cases h; exact ⟨s, .refl s, .result _ rfl⟩
  | notReg dr sr => cases h; exact ⟨s, .refl s, .result _ rfl⟩
  | lea dr off => cases h; exact ⟨s, .refl s, .result _ rfl⟩
  | ld dr off =>
    obtain ⟨v, s1, hread, rfl⟩ := loadInto_next h
    exact ⟨s1, (memRead_frame hread).toScan, .result v rfl⟩
  | ldr dr base off =>
    obtain ⟨v, s1, hread, rfl⟩ := loadInto_next h
    exact ⟨s1, (memRead_frame hread).toScan, .result v rfl⟩
  | ldi dr off =>
    obtain ⟨ptr, s1, v, s2, hptr, hread, rfl⟩ := execLdi_next h
    exact ⟨s2, (memRead_frame hptr).toScan.trans (memRead_frame hread).toScan, .result v rfl⟩
  | st sr off => cases h; exact ⟨s, .refl s, .word _ _ rfl rfl⟩
  | str sr base off => cases h; exact ⟨s, .refl s, .word _ _ rfl rfl⟩
  | sti sr off =>
    obtain ⟨ptr, s1, hptr, rfl⟩ := execSti_next h
    exact ⟨s1, (memRead_frame hptr).toScan, .word ptr _ rfl rfl⟩
  | rti => cases h; exact ⟨s, .refl s, .nothing rfl⟩
  | res => cases h; exact ⟨s, .refl s, .nothing rfl⟩
  | trapGetc =>
    obtain ⟨c, input, -, rfl⟩ := execGetc_next h
    exact ⟨s.setInput input, .setInput s input, .input c (.inl rfl)⟩
  | trapOut => exact ⟨t, .of_emitAll h, .nothing rfl⟩
  | trapPuts => exact ⟨t, execPuts_frame h, .nothing rfl⟩
  | trapIn =>
    obtain ⟨c, input, -, haccepts, rfl⟩ := execIn_next h
    have hsink : ScanFrame (s.setInput input) ((s.setInput input).setSink
        (s.sink ++ (Config.inPrompt ++ [lowByte c]))
        (s.sinkRoom.map (· - (Config.inPrompt ++ [lowByte c]).length))) :=
      .setSink (by rw [List.length_append]; exact haccepts)
    rw [List.length_append, List.length_singleton, ← List.append_assoc] at hsink
    exact ⟨_, (ScanFrame.setInput s input).trans hsink, .input c (.inr rfl)⟩
  | trapPutsp => exact ⟨t, execPutsp_frame h, .nothing rfl⟩
  | trapHalt =>
    obtain ⟨haccepts, rfl⟩ := execHalt_next h
    exact ⟨_, .setSink haccepts, .halt rfl⟩
  | trapOther v => cases h; exact ⟨s, .refl s, .nothing rfl⟩

/-! ### Registers -/

/-- The destination of a flag-writing instruction is its Writes column (R22, R27). -/
theorem writesRegs_of_flagDest {i : Instr} {d : Reg} (h : flagDest i = some d) : writesRegs i = [d] := by
  cases i <;> cases h <;> rfl

theorem writeResult_reg_of_ne {d r : Reg} (h : r ≠ d) (v : Word) (u : State) :
    (writeResult d v u).reg r = u.reg r := (resultWritten d v u).regs r h

theorem FinalWrite.reg {i : Instr} {u t : State} (h : FinalWrite i u t) {r : Reg} (hr : r ∉ writesRegs i) :
    t.reg r = u.reg r := by
  cases h with
  | nothing => rfl
  | result v dest =>
    rw [writesRegs_of_flagDest dest, List.mem_singleton] at hr
    exact writeResult_reg_of_ne hr v u
  | word => rfl
  | pc => rfl
  | call v _ links =>
    rw [links, List.mem_singleton] at hr
    exact link_reg_of_ne u hr
  | input c reads =>
    have hr0 : r ≠ 0 := by rcases reads with rfl | rfl <;> exact List.ne_of_not_mem_cons hr
    exact u.reg_setReg_ne hr0 c
  | halt => rfl

/-- Settles O13: reads and emissions write no register, and the final write writes only the listed ones. -/
theorem onlyListedRegistersWritten : Obligations.OnlyListedRegistersWritten := by
  intro i s t r h hr
  obtain ⟨u, hframe, hwrite⟩ := exec_next h
  exact (hwrite.reg hr).trans (hframe.reg r)

/-! ### The condition code -/

theorem writeResult_cond (d : Reg) (v : Word) (u : State) : (writeResult d v u).cond = condOf v := by
  rw [writeResult_eq, State.setCond_cond]

theorem flagDest_of_input {i : Instr} (h : i = .trapGetc ∨ i = .trapIn) : flagDest i = none := by
  rcases h with rfl | rfl <;> rfl

/-- The condition code after the final write: untouched, or the condition of the destination's value (R27). -/
theorem FinalWrite.cond {i : Instr} {u t : State} (h : FinalWrite i u t) :
    (flagDest i = none ∧ t.cond = u.cond) ∨ ∃ d, flagDest i = some d ∧ t.cond = condOf (t.reg d) := by
  cases h with
  | nothing flags => exact .inl ⟨flags, rfl⟩
  | result v dest =>
    refine .inr ⟨_, dest, ?_⟩
    rw [writeResult_cond, (resultWritten _ v u).value]
  | word _ _ _ flags => exact .inl ⟨flags, rfl⟩
  | pc _ _ flags => exact .inl ⟨flags, rfl⟩
  | call _ _ _ flags => exact .inl ⟨flags, rfl⟩
  | input _ reads => exact .inl ⟨flagDest_of_input reads, rfl⟩
  | halt halts => exact .inl ⟨halts ▸ rfl, rfl⟩

/-- No branch is taken on an empty condition code (R244). -/
theorem branchTaken_of_cond_zero (mask : BitVec 3) {s : State} (h : s.cond = 0x0000) : branchTaken mask s = false := by
  rw [Bool.eq_false_iff, ne_eq, branchTaken_iff]
  rintro ⟨k, -, -, hk⟩
  rw [h] at hk
  simp at hk

/-- Settles O12: only the final write touches `cond`, and it is a written result exactly for the seven; BR's mask meets
no bit of an empty slot. -/
theorem onlySevenInstructionsWriteFlags : Obligations.OnlySevenInstructionsWriteFlags := by
  refine ⟨fun i s t h => ?flags, fun mask off s hcond => ?noBranch⟩
  case flags =>
    obtain ⟨u, hframe, hwrite⟩ := exec_next h
    rcases hwrite.cond with ⟨hnone, hcond⟩ | ⟨d, hdest, hcond⟩
    · refine ⟨fun _ => hcond.trans hframe.cond, fun d hd => ?_⟩
      rw [hnone] at hd
      cases hd
    · refine ⟨fun hnone => ?_, fun d' hd' => ?_⟩
      · rw [hdest] at hnone
        cases hnone
      · rw [hdest] at hd'
        cases hd'
        exact hcond
  case noBranch =>
    rw [exec_br, branchTaken_of_cond_zero mask hcond, if_neg Bool.false_ne_true]
    rfl

/-! ### `pc` and the run state -/

theorem FinalWrite.pc_eq {i : Instr} {u t : State} (h : FinalWrite i u t) (hi : redirectsPc i = false) :
    t.pc = u.pc := by
  cases h with
  | pc _ redirects => exact absurd (hi.symm.trans redirects) Bool.false_ne_true
  | call _ redirects => exact absurd (hi.symm.trans redirects) Bool.false_ne_true
  | nothing => rfl
  | result => rfl
  | word => rfl
  | input => rfl
  | halt => rfl

theorem FinalWrite.run_eq {i : Instr} {u t : State} (h : FinalWrite i u t) (hi : i ≠ .trapHalt) : t.run = u.run := by
  cases h with
  | halt halts => exact absurd halts hi
  | nothing => rfl
  | result => rfl
  | word => rfl
  | pc => rfl
  | call => rfl
  | input => rfl

/-- The TRAP constructors. -/
abbrev IsTrap (i : Instr) : Prop :=
  i ∈ [Instr.trapGetc, .trapOut, .trapPuts, .trapIn, .trapPutsp, .trapHalt] ∨ ∃ v, i = .trapOther v

/-- A TRAP writes neither `pc` nor a flag, and R0 at most, and that only if it is GETC or IN (D9, D10). -/
theorem IsTrap.writes {i : Instr} (h : IsTrap i) :
    redirectsPc i = false ∧ flagDest i = none ∧ (∀ r : Reg, r ≠ 0 → r ∉ writesRegs i) ∧
      (i ≠ .trapGetc → i ≠ .trapIn → writesRegs i = []) := by
  have hzero {r : Reg} (hr : r ≠ 0) : r ∉ [(0 : Reg)] := by simpa using hr
  simp only [IsTrap, List.mem_cons, List.not_mem_nil, or_false] at h
  rcases h with (rfl | rfl | rfl | rfl | rfl | rfl) | ⟨v, rfl⟩
  · exact ⟨rfl, rfl, fun _ => hzero, fun h _ => absurd rfl h⟩
  · exact ⟨rfl, rfl, fun _ _ => List.not_mem_nil, fun _ _ => rfl⟩
  · exact ⟨rfl, rfl, fun _ _ => List.not_mem_nil, fun _ _ => rfl⟩
  · exact ⟨rfl, rfl, fun _ => hzero, fun _ h => absurd rfl h⟩
  · exact ⟨rfl, rfl, fun _ _ => List.not_mem_nil, fun _ _ => rfl⟩
  · exact ⟨rfl, rfl, fun _ _ => List.not_mem_nil, fun _ _ => rfl⟩
  · exact ⟨rfl, rfl, fun _ _ => List.not_mem_nil, fun _ _ => rfl⟩

/-- Settles O49: what a TRAP's Writes column and its final write leave out. -/
theorem trapsLeavePcLinkAndFlags : Obligations.TrapsLeavePcLinkAndFlags := by
  intro i s t htrap h
  obtain ⟨hpc, hflags, hregs, hzero⟩ := IsTrap.writes htrap
  obtain ⟨u, hframe, hwrite⟩ := exec_next h
  obtain ⟨hcond, -⟩ := onlySevenInstructionsWriteFlags.1 i s t h
  refine ⟨(hwrite.pc_eq hpc).trans hframe.pc, hcond hflags,
    fun r hr => onlyListedRegistersWritten i s t r h (hregs r hr), fun hgetc hin => ?_⟩
  exact onlyListedRegistersWritten i s t 0 h (by rw [hzero hgetc hin]; exact List.not_mem_nil)

/-! ### Memory and the invariant -/

theorem FinalWrite.word_eq {i : Instr} {u t : State} (h : FinalWrite i u t) (hi : isStore i = false) (a : Word) :
    t.word a = u.word a := by
  cases h with
  | word _ _ store => exact absurd (hi.symm.trans store) Bool.false_ne_true
  | nothing => rfl
  | result => rfl
  | pc => rfl
  | call => rfl
  | input => rfl
  | halt => rfl

theorem isStore_eq_false {i : Instr} (hst : ∀ sr off, i ≠ .st sr off) (hsti : ∀ sr off, i ≠ .sti sr off)
    (hstr : ∀ sr base off, i ≠ .str sr base off) : isStore i = false := by
  cases i with
  | st sr off => exact absurd rfl (hst sr off)
  | sti sr off => exact absurd rfl (hsti sr off)
  | str sr base off => exact absurd rfl (hstr sr base off)
  | _ => rfl

/-- Settles O21: reads rewrite the device words only, and the final write is a store only for ST, STI and STR. -/
theorem onlyStoresAndPollsChangeMemory : Obligations.OnlyStoresAndPollsChangeMemory := by
  intro i s t a h hst hsti hstr hkbsr hkbdr
  obtain ⟨u, hframe, hwrite⟩ := exec_next h
  exact (hwrite.word_eq (isStore_eq_false hst hsti hstr) a).trans (hframe.word a hkbsr hkbdr)

theorem FinalWrite.wf {i : Instr} {u t : State} (h : FinalWrite i u t) (hu : u.mem.wf = true) : t.mem.wf = true := by
  cases h with
  | word a v => exact State.memWrite_wf hu a v
  | nothing => exact hu
  | result => exact hu
  | pc => exact hu
  | call => exact hu
  | input => exact hu
  | halt => exact hu

theorem condLegal_of_cond_eq {s t : State} (h : t.cond = s.cond) (hs : s.condLegal) : t.condLegal := by
  rw [State.condLegal, h]
  exact hs

theorem exec_keeps_inv {i : Instr} {s t : State} (h : exec i s = .next t) (hs : s.Inv) : t.Inv := by
  obtain ⟨hwf, hcond⟩ := hs
  obtain ⟨u, hframe, hwrite⟩ := exec_next h
  refine ⟨hwrite.wf (hframe.wf hwf), ?_⟩
  rcases hwrite.cond with ⟨-, heq⟩ | ⟨d, -, heq⟩
  · exact condLegal_of_cond_eq (heq.trans hframe.cond) hcond
  · rw [State.condLegal, heq]
    exact .inr (condOf_oneHot (t.reg d))

/-! ### The fetch as a quiet part of the step -/

/-- A fetch is a read and then the PC advance, so everything but `pc`, the device words and the host's input stays. -/
theorem fetch_read {s s1 : State} {w : Word} (h : fetch s = .next (w, s1)) :
    ∃ u, memRead s.pc s = .next (w, u) ∧ s1 = advancePc u := by
  rcases fetch_cases s with ⟨v, u, hread, e⟩ | ⟨_, _, _, e⟩ <;> rw [e] at h <;> cases h
  exact ⟨u, hread, rfl⟩

theorem fetch_frame {s s1 : State} {w : Word} (h : fetch s = .next (w, s1)) :
    s1.run = s.run ∧ s1.sink = s.sink ∧ s1.sinkRoom = s.sinkRoom ∧ s1.cond = s.cond ∧
      (s.mem.wf = true → s1.mem.wf = true) := by
  obtain ⟨u, hread, rfl⟩ := fetch_read h
  have hu := memRead_frame hread
  rw [advancePc_eq]
  exact ⟨hu.run, hu.sink, hu.sinkRoom, hu.cond, hu.wf⟩

/-- Settles O19: fetch, reads, emissions and the final write keep the canonical form, and the condition code is kept or
is the condition of a value. -/
theorem stepKeepsInvariant : Obligations.StepKeepsInvariant := by
  rintro s t ⟨hwf, hcond⟩ h
  rcases step_cases h with rfl | ⟨w, s1, i, -, hfetch, -, hexec⟩
  · exact ⟨hwf, hcond⟩
  · obtain ⟨-, -, -, hcond1, hwf1⟩ := fetch_frame hfetch
    exact exec_keeps_inv hexec ⟨hwf1 hwf, condLegal_of_cond_eq hcond1 hcond⟩

/-- Settles O20: nothing is set at reset, and memory is `MEM_RESET`. -/
theorem resetMeetsInvariant : Obligations.ResetMeetsInvariant :=
  ⟨⟨Memory.wf_nil, .inl rfl⟩, fun _ hm => ⟨hm, .inl rfl⟩⟩

/-- Settles O18: `Memory.write` keeps the form at every word address; an address past the last word reads as blank in
both memories, so agreement on words is agreement everywhere. -/
theorem memoryFormIsCanonical : Obligations.MemoryFormIsCanonical := by
  refine ⟨fun m a v hm => Memory.wf_write hm (word_lt_memWords a) v,
    fun m n hm hn hread => Memory.ext_of_wfFrom hm hn fun a => ?_⟩
  by_cases ha : a < memWords
  · have hword : (BitVec.ofNat 16 a).toNat = a := (BitVec.toNat_ofNat a 16).trans (Nat.mod_eq_of_lt ha)
    rw [← hword]
    exact hread _
  · rw [Memory.read_of_ge hm (Nat.not_lt.mp ha), Memory.read_of_ge hn (Nat.not_lt.mp ha)]

/-! ### The sink -/

theorem FinalWrite.sink_eq {i : Instr} {u t : State} (h : FinalWrite i u t) : SameSink u t := by
  cases h with
  | nothing => exact ⟨rfl, rfl⟩
  | result => exact ⟨rfl, rfl⟩
  | word => exact ⟨rfl, rfl⟩
  | pc => exact ⟨rfl, rfl⟩
  | call => exact ⟨rfl, rfl⟩
  | input => exact ⟨rfl, rfl⟩
  | halt => exact ⟨rfl, rfl⟩

/-- Settles O50: the fetch and the final write leave the sink alone, and the part between them appends. -/
theorem sinkOnlyGrows : Obligations.SinkOnlyGrows := by
  intro s t h
  rcases step_cases h with rfl | ⟨w, s1, i, -, hfetch, -, hexec⟩
  · exact (ScanFrame.refl t).sink
  · obtain ⟨-, hsink1, hroom1, -, -⟩ := fetch_frame hfetch
    obtain ⟨u, hframe, hwrite⟩ := exec_next hexec
    obtain ⟨hsink, hroom⟩ := hwrite.sink_eq
    obtain ⟨cs, hcs, haccepts, hleft⟩ := hframe.sink
    rw [hsink1] at hcs
    rw [hroom1] at hleft
    rw [State.sinkAccepts, hroom1] at haccepts
    exact ⟨cs, hsink.trans hcs, haccepts, hroom.trans hleft⟩

/-- A fetch leaves the sink alone, so what has filled the fetched state's sink has filled the old one. -/
theorem SinkFilled.of_fetch {s s1 : State} {w : Word} {left : HostSide} (h : fetch s = .next (w, s1))
    (hf : SinkFilled s1 left) : SinkFilled s left := by
  obtain ⟨-, hsink, hroom, -, -⟩ := fetch_frame h
  rwa [SinkFilled, hsink, hroom] at hf

/-- A meaning whose sink rejects a character is one of the five output routines and has filled the sink. -/
theorem exec_fatalIO {i : Instr} {s : State} {left : HostSide} (h : exec i s = .fault (.fatalIO left)) :
    i ∈ [Instr.trapOut, .trapPuts, .trapIn, .trapPutsp, .trapHalt] ∧ SinkFilled s left := by
  rcases exec_fault h with e | ⟨left', e, hmem, hfilled⟩ | ⟨e, _⟩ <;> cases e
  exact ⟨hmem, hfilled⟩

/-- Settles O52: which meanings reject and how they fill the sink is `exec_fault`; OUT and HALT emit before they ask the
host for anything, and `execIn_fault` lists IN's rejections. -/
theorem fatalIOKeepsWhatWasEmitted : Obligations.FatalIOKeepsWhatWasEmitted := by
  refine ⟨fun i s left h => ?exec, fun s left h => ?step⟩
  case exec =>
    obtain ⟨hmem, hfilled⟩ := exec_fatalIO h
    refine ⟨hmem, hfilled, ?outHalt, ?input⟩
    case outHalt =>
      rintro (rfl | rfl)
      · exact (SinkFilled.of_emitAll h).1
      · rcases andThen_eq_fault.mp h with e | ⟨_, _, e⟩
        · exact (SinkFilled.of_emitAll e).1
        · cases e
    case input =>
      rintro rfl
      rcases execIn_fault h with e | ⟨_, _, _, e⟩ | ⟨c, input, hc, _, e⟩ <;> cases e
      · exact .inl rfl
      · exact .inr ⟨c, hc⟩
  case step =>
    obtain ⟨w, s1, i, hfetch, -, hexec, -⟩ := step_fault h
    exact (exec_fatalIO hexec).2.of_fetch hfetch

/-! ### The outcomes of a cycle -/

/-- No step refuses: no meaning does, and a Stopped or waiting engine is held. -/
theorem step_not_refused (s : State) (r : Refusal) : step s ≠ .refused r := by
  intro h
  cases hr : s.run with
  | stopped =>
    rw [step_stopped hr] at h
    cases h
  | running =>
    rw [step_running hr] at h
    rcases fetch_cases s with ⟨w, u, _, hfetch⟩ | ⟨_, _, _, hfetch⟩
    · obtain ⟨i, hi⟩ := decode_total w
      rw [cycle_of_fetch hfetch hi] at h
      cases hx : exec i (advancePc u) with
      | next t => rw [hx] at h; cases h
      | fault f => rw [hx] at h; cases f <;> cases h
      | refused r' => exact exec_not_refused i _ r' hx
    · rw [cycle, hfetch] at h
      cases h

/-- Settles O8: the word fetched is HALT and the engine stops with the notice emitted, or the step goes on Running, or it
faults as its instruction does; no meaning refuses, and no step ends in the wait. -/
theorem cycleOutcomesAreClosed : Obligations.CycleOutcomesAreClosed := by
  intro s hrun
  cases h : step s with
  | next t =>
    rcases step_cases h with rfl | ⟨w, s1, i, -, hfetch, hdecode, hexec⟩
    · exact .inl ⟨t, rfl, hrun⟩
    · by_cases hi : i = .trapHalt
      · subst hi
        obtain ⟨-, rfl⟩ := execHalt_next hexec
        exact .inr (.inl ⟨w, s1, _, hfetch, hdecode, rfl, rfl, rfl, rfl⟩)
      · obtain ⟨u, hframe, hwrite⟩ := exec_next hexec
        obtain ⟨hrun1, -⟩ := fetch_frame hfetch
        exact .inl ⟨t, rfl, (hwrite.run_eq hi).trans (hframe.run.trans (hrun1.trans hrun))⟩
  | fault f =>
    obtain ⟨w, s1, i, hfetch, hdecode, hexec, hwait⟩ := step_fault h
    rcases exec_fault hexec with rfl | ⟨left, rfl, hmem, hfilled⟩ | ⟨rfl, hmem⟩
    · exact absurd rfl hwait
    · exact .inr (.inr (.inl ⟨w, s1, i, left, hfetch, hdecode, hmem, hfilled, rfl⟩))
    · exact .inr (.inr (.inr ⟨w, s1, i, hfetch, hdecode, hmem, rfl⟩))
  | refused r => exact absurd h (step_not_refused s r)

end Sys2Proof.Machine
end

section
/-! Non-interference of the registers an instruction does not read (10_state.md section 1): a value put there before the
instruction is overwritten by it, or is there after it and nowhere else. -/

namespace Sys2Proof.Machine

/-! ### The parts of a meaning past a register write -/

section
variable (s : State) (r : Reg) (v : Word)

theorem loadInto_setReg_self (a : Word) : loadInto r a (s.setReg r v) = loadInto r a s := by
  rw [loadInto, loadInto, memRead_setReg]
  cases memRead a s with
  | next p => simp only [andThen_next, writeResult_setReg_self]
  | fault => rfl
  | refused => rfl

variable {r} in
theorem loadInto_setReg_ne {d : Reg} (h : r ≠ d) (a : Word) :
    loadInto d a (s.setReg r v) = andThen (loadInto d a s) fun t => .next (t.setReg r v) := by
  rw [loadInto, loadInto, memRead_setReg]
  cases memRead a s with
  | next p => simp only [andThen_next, writeResult_setReg_ne _ h]
  | fault => rfl
  | refused => rfl

/-- A second part that absorbs the register write lets the whole sequence absorb it. -/
theorem andThen_setReg_absorb {α : Type} (o : Part (α × State)) (f : α × State → Part State)
    (hf : ∀ x u, f (x, u.setReg r v) = f (x, u)) :
    andThen (andThen o fun p => .next (p.1, p.2.setReg r v)) f = andThen o f := by
  cases o with
  | next p => exact hf p.1 p.2
  | fault => rfl
  | refused => rfl

/-- A second part that commutes with the register write lets the whole sequence commute with it. -/
theorem andThen_setReg_commute {α : Type} (o : Part (α × State)) (f : α × State → Part State)
    (hf : ∀ x u, f (x, u.setReg r v) = andThen (f (x, u)) fun t => .next (t.setReg r v)) :
    andThen (andThen o fun p => .next (p.1, p.2.setReg r v)) f =
      andThen (andThen o f) fun t => .next (t.setReg r v) := by
  cases o with
  | next p => exact hf p.1 p.2
  | fault => rfl
  | refused => rfl

/-! ### The meanings no earlier family states as an equation -/

/-- What IN does before it writes R0: prompt, read, echo (R175). -/
def promptReadEcho (s : State) : Part (Word × State) :=
  andThen (emitAll Config.inPrompt s) fun s =>
  andThen (readChar s) fun (c, s) =>
  andThen (emit (lowByte c) s) fun s => .next (c, s)

theorem exec_trapIn : exec .trapIn s = andThen (promptReadEcho s) fun p => .next (p.2.setReg 0 p.1) := by
  change execIn s = _
  rw [execIn, promptReadEcho, trapEntry_eq]
  cases emitAll Config.inPrompt s with
  | next u =>
    simp only [andThen_next]
    cases readChar u with
    | next p =>
      simp only [andThen_next]
      cases emit (lowByte p.1) p.2 with
      | next w => rfl
      | fault => rfl
      | refused => rfl
    | fault => rfl
    | refused => rfl
  | fault => rfl
  | refused => rfl

theorem promptReadEcho_setReg :
    promptReadEcho (s.setReg r v) = andThen (promptReadEcho s) fun p => .next (p.1, p.2.setReg r v) := by
  rw [promptReadEcho, promptReadEcho, emitAll_setReg]
  cases emitAll Config.inPrompt s with
  | next u =>
    simp only [andThen_next, readChar_setReg]
    cases readChar u with
    | next p =>
      simp only [andThen_next, emit, emitAll_setReg]
      cases emitAll [lowByte p.1] p.2 with
      | next w => rfl
      | fault => rfl
      | refused => rfl
    | fault => rfl
    | refused => rfl
  | fault => rfl
  | refused => rfl

theorem exec_trapGetc : exec .trapGetc s = andThen (readChar s) fun p => .next (p.2.setReg 0 p.1) := rfl

theorem exec_ldi (dr : Reg) (off : BitVec 9) :
    exec (.ldi dr off) s = andThen (memRead (s.pc + off.signExtend 16) s) fun p => loadInto dr p.1 p.2 := by
  rw [← pcRelative_eq]
  rfl

theorem exec_ldr (dr base : Reg) (off : BitVec 6) :
    exec (.ldr dr base off) s = loadInto dr (s.reg base + off.signExtend 16) s := by
  rw [← basePlusOffset_eq]
  rfl

theorem exec_sti (sr : Reg) (off : BitVec 9) :
    exec (.sti sr off) s =
      andThen (memRead (s.pc + off.signExtend 16) s) fun p => .next (p.2.memWrite p.1 (p.2.reg sr)) := by
  rw [← pcRelative_eq]
  rfl

theorem exec_jsrr (base : Reg) : exec (.jsrr base) s = .next ((link s).setPc ((link s).reg base)) := rfl

theorem exec_trapOut : exec .trapOut s = emitAll [lowByte (s.reg 0)] s := rfl

theorem exec_trapPuts : exec .trapPuts s = scanString unpackOne (scanFuel s) (s.reg 0) s := rfl

theorem exec_trapPutsp : exec .trapPutsp s = scanString unpackTwo (scanFuel s) (s.reg 0) s := rfl

theorem exec_trapHalt :
    exec .trapHalt s = andThen (emitAll Config.haltNotice s) fun t => .next (t.setRun .stopped) := rfl

theorem exec_trapOther (w : Byte) : exec (.trapOther w) s = .next s := rfl

theorem link_setReg_seven : link (s.setReg 7 v) = link s := s.setReg_setReg 7 v s.pc

variable {r} in
theorem link_setReg_ne (h : r ≠ 7) : link (s.setReg r v) = (link s).setReg r v := s.setReg_comm h v s.pc

theorem scanFuel_setReg : scanFuel (s.setReg r v) = scanFuel s := rfl

end

/-! ### Every instruction -/

section
variable {i : Instr} {s : State} {r : Reg} (v : Word)

/-- A value put in a register that the instruction writes and does not read is lost. -/
theorem exec_setReg_of_written (hr : r ∉ readsRegs i) (hw : r ∈ writesRegs i) : exec i (s.setReg r v) = exec i s := by
  have hread {u : State} (x : Reg) (hx : x ∈ readsRegs i) : (u.setReg r v).reg x = u.reg x :=
    u.reg_setReg_ne (ne_of_mem_of_not_mem hx hr) v
  cases i with
  | addReg dr sr1 sr2 =>
    obtain rfl := List.mem_singleton.mp hw
    rw [exec_addReg, exec_addReg, hread sr1 (.head _),
      hread sr2 (.tail _ (.head _)), writeResult_setReg_self]
  | addImm dr sr1 imm =>
    obtain rfl := List.mem_singleton.mp hw
    rw [exec_addImm, exec_addImm, hread sr1 (.head _), writeResult_setReg_self]
  | andReg dr sr1 sr2 =>
    obtain rfl := List.mem_singleton.mp hw
    rw [exec_andReg, exec_andReg, hread sr1 (.head _),
      hread sr2 (.tail _ (.head _)), writeResult_setReg_self]
  | andImm dr sr1 imm =>
    obtain rfl := List.mem_singleton.mp hw
    rw [exec_andImm, exec_andImm, hread sr1 (.head _), writeResult_setReg_self]
  | notReg dr sr =>
    obtain rfl := List.mem_singleton.mp hw
    rw [exec_notReg, exec_notReg, hread sr (.head _), writeResult_setReg_self]
  | lea dr off =>
    obtain rfl := List.mem_singleton.mp hw
    rw [exec_lea, exec_lea, State.setReg_pc, writeResult_setReg_self]
  | ld dr off =>
    obtain rfl := List.mem_singleton.mp hw
    rw [exec_ld, exec_ld, State.setReg_pc, loadInto_setReg_self]
  | ldr dr base off =>
    obtain rfl := List.mem_singleton.mp hw
    rw [exec_ldr, exec_ldr, hread base (.head _), loadInto_setReg_self]
  | ldi dr off =>
    obtain rfl := List.mem_singleton.mp hw
    rw [exec_ldi, exec_ldi, State.setReg_pc, memRead_setReg]
    exact andThen_setReg_absorb _ _ _ _ fun ptr u => loadInto_setReg_self u r v ptr
  | jsr off =>
    obtain rfl := List.mem_singleton.mp hw
    rw [exec_jsr, exec_jsr, State.setReg_pc, link_setReg_seven]
  | jsrr base =>
    obtain rfl := List.mem_singleton.mp hw
    rw [exec_jsrr, exec_jsrr, link_setReg_seven]
  | trapGetc =>
    obtain rfl := List.mem_singleton.mp hw
    rw [exec_trapGetc, exec_trapGetc, readChar_setReg]
    exact andThen_setReg_absorb _ _ _ _ fun c u => congrArg _ (u.setReg_setReg 0 v c)
  | trapIn =>
    obtain rfl := List.mem_singleton.mp hw
    rw [exec_trapIn, exec_trapIn, promptReadEcho_setReg]
    exact andThen_setReg_absorb _ _ _ _ fun c u => congrArg _ (u.setReg_setReg 0 v c)
  | _ => cases hw

/-- A value put in a register that the instruction neither reads nor writes is there afterwards, and that is all the
difference it makes. -/
theorem exec_setReg_of_unwritten (hr : r ∉ readsRegs i) (hw : r ∉ writesRegs i) :
    exec i (s.setReg r v) = andThen (exec i s) fun t => .next (t.setReg r v) := by
  have hread {u : State} (x : Reg) (hx : x ∈ readsRegs i) : (u.setReg r v).reg x = u.reg x :=
    u.reg_setReg_ne (ne_of_mem_of_not_mem hx hr) v
  have hne (d : Reg) (hd : d ∈ writesRegs i) : r ≠ d := (ne_of_mem_of_not_mem hd hw).symm
  cases i with
  | addReg dr sr1 sr2 =>
    rw [exec_addReg, exec_addReg, hread sr1 (.head _),
      hread sr2 (.tail _ (.head _)), writeResult_setReg_ne _ (hne dr (.head _)),
      andThen_next]
  | addImm dr sr1 imm =>
    rw [exec_addImm, exec_addImm, hread sr1 (.head _),
      writeResult_setReg_ne _ (hne dr (.head _)), andThen_next]
  | andReg dr sr1 sr2 =>
    rw [exec_andReg, exec_andReg, hread sr1 (.head _),
      hread sr2 (.tail _ (.head _)), writeResult_setReg_ne _ (hne dr (.head _)),
      andThen_next]
  | andImm dr sr1 imm =>
    rw [exec_andImm, exec_andImm, hread sr1 (.head _),
      writeResult_setReg_ne _ (hne dr (.head _)), andThen_next]
  | notReg dr sr =>
    rw [exec_notReg, exec_notReg, hread sr (.head _),
      writeResult_setReg_ne _ (hne dr (.head _)), andThen_next]
  | lea dr off =>
    rw [exec_lea, exec_lea, State.setReg_pc, writeResult_setReg_ne _ (hne dr (.head _)), andThen_next]
  | ld dr off => rw [exec_ld, exec_ld, State.setReg_pc, loadInto_setReg_ne _ _ (hne dr (.head _))]
  | ldr dr base off =>
    rw [exec_ldr, exec_ldr, hread base (.head _),
      loadInto_setReg_ne _ _ (hne dr (.head _))]
  | ldi dr off =>
    rw [exec_ldi, exec_ldi, State.setReg_pc, memRead_setReg]
    exact andThen_setReg_commute _ _ _ _ fun ptr u => loadInto_setReg_ne u v (hne dr (.head _)) ptr
  | st sr off =>
    rw [exec_st, exec_st, hread sr (.head _)]
    rfl
  | str sr base off =>
    rw [exec_str, exec_str, hread sr (.head _),
      hread base (.tail _ (.head _))]
    rfl
  | sti sr off =>
    rw [exec_sti, exec_sti, State.setReg_pc, memRead_setReg]
    exact andThen_setReg_commute _ _ _ _ fun ptr u =>
      congrArg (Host.Outcome.next <| State.memWrite _ ptr ·) (hread (u := u) sr (.head _))
  | br mask off => rw [exec_br, exec_br]; rfl
  | jmp base =>
    rw [exec_jmp, exec_jmp, hread base (.head _)]
    rfl
  | jsr off =>
    rw [exec_jsr, exec_jsr, link_setReg_ne _ _ (hne 7 (.head _))]
    rfl
  | jsrr base =>
    rw [exec_jsrr, exec_jsrr, link_setReg_ne _ _ (hne 7 (.head _)),
      hread base (.head _)]
    rfl
  | rti => rfl
  | res => rfl
  | trapGetc =>
    rw [exec_trapGetc, exec_trapGetc, readChar_setReg]
    exact andThen_setReg_commute _ _ _ _ fun c u => congrArg _ (u.setReg_comm (hne 0 (.head _)) v c)
  | trapOut => rw [exec_trapOut, exec_trapOut, hread 0 (.head _), emitAll_setReg]
  | trapPuts =>
    rw [exec_trapPuts, exec_trapPuts, hread 0 (.head _), scanFuel_setReg,
      scanString_setReg]
  | trapIn =>
    rw [exec_trapIn, exec_trapIn, promptReadEcho_setReg]
    exact andThen_setReg_commute _ _ _ _ fun c u => congrArg _ (u.setReg_comm (hne 0 (.head _)) v c)
  | trapPutsp =>
    rw [exec_trapPutsp, exec_trapPutsp, hread 0 (.head _), scanFuel_setReg,
      scanString_setReg]
  | trapHalt =>
    rw [exec_trapHalt, exec_trapHalt, emitAll_setReg]
    cases emitAll Config.haltNotice s with
    | next u => rfl
    | fault => rfl
    | refused => rfl
  | trapOther w => rfl

end

/-- Settles O14: each meaning's parts commute with the write of a register it does not read, and its final write absorbs
it or commutes with it. -/
theorem unreadRegistersDoNotMatter : Obligations.UnreadRegistersDoNotMatter :=
  fun _ _ _ v hr => ⟨exec_setReg_of_written v hr, exec_setReg_of_unwritten v hr⟩

end Sys2Proof.Machine
end

section
/-! Encoding: the round trip, the opcode table, the ignored bits and the dispatcher's default arm (30_encoding.md). -/

namespace Sys2Proof.Machine

open Sys2Proof.Laws

/-- Settles O1: one lemma for each constructor. -/
theorem decodeEncodeRoundTrip : Obligations.DecodeEncodeRoundTrip := by
  intro i
  cases i with
  | br cond off => exact RoundTrip.br cond off
  | addReg dr sr1 sr2 => exact RoundTrip.addReg dr sr1 sr2
  | addImm dr sr1 imm => exact RoundTrip.addImm dr sr1 imm
  | ld dr off => exact RoundTrip.ld dr off
  | st sr off => exact RoundTrip.st sr off
  | jsr off => exact RoundTrip.jsr off
  | jsrr base => exact RoundTrip.jsrr base
  | andReg dr sr1 sr2 => exact RoundTrip.andReg dr sr1 sr2
  | andImm dr sr1 imm => exact RoundTrip.andImm dr sr1 imm
  | ldr dr base off => exact RoundTrip.ldr dr base off
  | str sr base off => exact RoundTrip.str sr base off
  | rti => exact RoundTrip.rti
  | notReg dr sr => exact RoundTrip.notReg dr sr
  | ldi dr off => exact RoundTrip.ldi dr off
  | sti sr off => exact RoundTrip.sti sr off
  | jmp base => exact RoundTrip.jmp base
  | res => exact RoundTrip.res
  | lea dr off => exact RoundTrip.lea dr off
  | trapGetc => exact RoundTrip.trapGetc
  | trapOut => exact RoundTrip.trapOut
  | trapPuts => exact RoundTrip.trapPuts
  | trapIn => exact RoundTrip.trapIn
  | trapPutsp => exact RoundTrip.trapPutsp
  | trapHalt => exact RoundTrip.trapHalt
  | trapOther v => exact RoundTrip.trapOther v

/-! ### The words of the instructions no earlier family decodes -/

section
variable {w : Word}

theorem decode_jsrr (hop : w.extractLsb' 12 4 = Config.opcJsr) (hlong : w.getLsbD 11 = false) :
    decode w = .ok (.jsrr (regField w 6)) := by
  rw [decode_of_field hop, decodeOp_opcJsr, longBit, hlong, if_neg Bool.false_ne_true]

theorem decode_ldr (hop : w.extractLsb' 12 4 = Config.opcLdr) :
    decode w = .ok (.ldr (regField w 9) (regField w 6) (offset6Field w)) := by
  rw [decode_of_field hop, decodeOp_opcLdr]

theorem decode_ldi (hop : w.extractLsb' 12 4 = Config.opcLdi) :
    decode w = .ok (.ldi (regField w 9) (pcOffset9Field w)) := by
  rw [decode_of_field hop, decodeOp_opcLdi]

theorem decode_trap (hop : w.extractLsb' 12 4 = Config.opcTrap) :
    decode w = .ok (decodeTrap (trapvect8Field w)) := by
  rw [decode_of_field hop, decodeOp_opcTrap]

/-- A TRAP word whose low byte is known (R96). -/
theorem decode_trap_of_vector {v : Byte} (hop : w.extractLsb' 12 4 = Config.opcTrap)
    (hv : w.extractLsb' 0 8 = v) : decode w = .ok (decodeTrap v) := by
  rw [decode_trap hop, trapvect8Field, hv]

end

theorem decodeTrap_of_unnamed {v : Byte} (h : v ∉ namedVectors) : decodeTrap v = .trapOther v := by
  simp only [namedVectors, List.mem_cons, List.not_mem_nil, or_false, not_or] at h
  simp [decodeTrap, h]

/-! ### The opcode table -/

/-- A row's word agrees with the row's pattern on every field the mask covers. -/
theorem field_of_holds {r : TableRow} {w : Word} {lo k : Nat} (hmask : r.mask.extractLsb' lo k = BitVec.allOnes k)
    (h : r.holds w = true) : w.extractLsb' lo k = r.pattern.extractLsb' lo k := by
  have heq : w &&& r.mask = r.pattern := eq_of_beq h
  rw [← heq, BitVec.extractLsb'_and, hmask, BitVec.and_allOnes]

theorem mask_opcode {r : TableRow} (hr : r ∈ opcodeTable) : r.mask.extractLsb' 12 4 = BitVec.allOnes 4 := by
  revert r
  decide

/-- The rows of one opcode, in the table's order. -/
def rowsOf (op : BitVec 4) : List TableRow := opcodeTable.filter fun r => opcodeOf r.pattern == op

/-- The first row that a word matches is among those of its opcode. -/
theorem tableMnemonic_eq (w : Word) :
    tableMnemonic w = ((rowsOf (opcodeOf w)).find? (·.holds w)).map (·.mnemonic) := by
  rw [tableMnemonic, rowsOf, List.find?_filter]
  congr 1
  refine List.find?_congr fun r hr => ?_
  cases h : r.holds w with
  | false => simp
  | true =>
    have hop : opcodeOf w = opcodeOf r.pattern := field_of_holds (mask_opcode hr) h
    simp [hop]

/-- What the masks of the table leave of a word, bit by bit: its opcode, and a mode bit, a long bit or a vector. -/
theorem and_mask_eq (w : Word) :
    w &&& 0xF000#16 = pack (opcodeOf w ++ 0#12) ∧
    w &&& 0xF020#16 = pack (opcodeOf w ++ 0#6 ++ BitVec.ofBool (modeBit w) ++ 0#5) ∧
    w &&& 0xF800#16 = pack (opcodeOf w ++ BitVec.ofBool (longBit w) ++ 0#11) ∧
    w &&& 0xF0FF#16 = pack (opcodeOf w ++ 0#4 ++ trapvect8Field w) := by
  refine ⟨?_, ?_, ?_, ?_⟩ <;> refine BitVec.eq_of_getLsbD_eq fun i hi => ?_ <;>
    simp only [pack, BitVec.getLsbD_and, BitVec.getLsbD_cast, BitVec.getLsbD_append, opcodeOf, modeBit, longBit,
      trapvect8Field, BitVec.getLsbD_extractLsb', BitVec.getLsbD_ofBool] <;>
    interval_cases i <;> simp

section
variable {w : Word} {op : BitVec 4} {r r' : TableRow} {rest : List TableRow}

theorem tableMnemonic_of_first (hop : opcodeOf w = op) (hrows : rowsOf op = r :: rest) (h : r.holds w = true) :
    tableMnemonic w = some r.mnemonic := by
  simp [tableMnemonic_eq, hop, hrows, h]

theorem tableMnemonic_of_second (hop : opcodeOf w = op) (hrows : rowsOf op = r :: r' :: rest)
    (h : r.holds w = false) (h' : r'.holds w = true) : tableMnemonic w = some r'.mnemonic := by
  simp [tableMnemonic_eq, hop, hrows, h, h']

end

/-! How the rows of each mask meet a word whose fields under the mask are known. -/

section
variable {w : Word} {op : BitVec 4} (hop : opcodeOf w = op) {m : String} {p : Word} {b : Bool}
include hop

theorem holds_opcode_row : (⟨m, p, 0xF000⟩ : TableRow).holds w = (pack (op ++ 0#12) == p) := by
  obtain ⟨hmask, -, -, -⟩ := and_mask_eq w
  exact hop ▸ congrArg (· == p) hmask

theorem holds_mode_row (hb : modeBit w = b) :
    (⟨m, p, 0xF020⟩ : TableRow).holds w = (pack (op ++ 0#6 ++ BitVec.ofBool b ++ 0#5) == p) := by
  obtain ⟨-, hmask, -, -⟩ := and_mask_eq w
  exact hop ▸ hb ▸ congrArg (· == p) hmask

theorem holds_long_row (hb : longBit w = b) :
    (⟨m, p, 0xF800⟩ : TableRow).holds w = (pack (op ++ BitVec.ofBool b ++ 0#11) == p) := by
  obtain ⟨-, -, hmask, -⟩ := and_mask_eq w
  exact hop ▸ hb ▸ congrArg (· == p) hmask

theorem holds_vector_row (v : Byte) :
    (⟨m, pack (op ++ 0#4 ++ v), 0xF0FF⟩ : TableRow).holds w = (trapvect8Field w == v) := by
  obtain ⟨-, -, -, hmask⟩ := and_mask_eq w
  rw [hop] at hmask
  have hfield (x : Byte) : trapvect8Field (pack (op ++ 0#4 ++ x)) = x := (fields_4_8 op 0#4 x).2
  have hpack : w &&& 0xF0FF#16 = pack (op ++ 0#4 ++ v) ↔ trapvect8Field w = v := by
    rw [hmask]
    exact ⟨fun h => by rw [← hfield (trapvect8Field w), h, hfield], fun h => by rw [h]⟩
  rw [Bool.eq_iff_iff, beq_iff_eq, ← hpack]
  exact beq_iff_eq

end

theorem rowsOf_opcTrap : rowsOf Config.opcTrap =
    (namedVectors.map fun v => ⟨(decodeTrap v).mnemonic, pack (Config.opcTrap ++ 0#4 ++ v), 0xF0FF⟩) ++
      [⟨"TRAP_other", pack (Config.opcTrap ++ 0#12), 0xF000⟩] := rfl

/-- The TRAP rows in their order: the one of the word's vector if it is named, the last if not (R96, R97). -/
theorem tableMnemonic_of_trap {w : Word} (hop : opcodeOf w = Config.opcTrap) :
    tableMnemonic w = some (decodeTrap (trapvect8Field w)).mnemonic := by
  rw [tableMnemonic_eq, hop, rowsOf_opcTrap, List.find?_append, List.find?_map]
  have hholds : ((fun r : TableRow => r.holds w) ∘ fun v : Byte => (⟨(decodeTrap v).mnemonic,
      pack (Config.opcTrap ++ 0#4 ++ v), 0xF0FF⟩ : TableRow)) = fun v => trapvect8Field w == v :=
    funext fun v => holds_vector_row hop v
  rw [hholds]
  generalize trapvect8Field w = v
  by_cases hv : v ∈ namedVectors
  · obtain ⟨x, hx⟩ := Option.isSome_iff_exists.mp (List.find?_isSome.mpr ⟨v, hv, beq_self_eq_true v⟩)
    rw [hx, eq_of_beq (List.find?_some hx)]
    rfl
  · have hnone : namedVectors.find? (v == ·) = none :=
      List.find?_eq_none.mpr fun x hx e => hv (eq_of_beq e ▸ hx)
    have hlast : (⟨"TRAP_other", pack (Config.opcTrap ++ 0#12), 0xF000⟩ : TableRow).holds w = true :=
      (holds_opcode_row hop).trans rfl
    rw [hnone, decodeTrap_of_unnamed hv, Option.map_none, Option.none_or,
      List.find?_cons_of_pos (p := (TableRow.holds · w)) hlast]
    rfl

theorem wf_decodeTrap (v : Byte) : (decodeTrap v).wf = true := by
  by_cases hv : v ∈ namedVectors
  · revert v
    decide
  · rw [decodeTrap_of_unnamed hv]
    simpa [Instr.wf] using hv

/-- Settles O2: each opcode's words decode to the instruction of the opcode's row; ADD, AND and JSR have two rows, which
the mode or long bit tells apart, and TRAP one for each named vector and one for the rest. -/
theorem everyWordDecodesToItsTableRow : Obligations.EveryWordDecodesToItsTableRow := by
  intro w
  rcases opcode_cases (opcodeOf w) with h | h | h | h | h | h | h | h | h | h | h | h | h | h | h | h
  · exact ⟨_, decode_br h, rfl, tableMnemonic_of_first h rfl (holds_opcode_row h)⟩
  · cases hm : modeBit w with
    | false => exact ⟨_, decode_addReg h hm, rfl, tableMnemonic_of_first h rfl (holds_mode_row h hm)⟩
    | true =>
      exact ⟨_, decode_addImm h hm, rfl, tableMnemonic_of_second h rfl (holds_mode_row h hm) (holds_mode_row h hm)⟩
  · exact ⟨_, decode_ld h, rfl, tableMnemonic_of_first h rfl (holds_opcode_row h)⟩
  · exact ⟨_, decode_st h, rfl, tableMnemonic_of_first h rfl (holds_opcode_row h)⟩
  · cases hl : longBit w with
    | false =>
      exact ⟨_, decode_jsrr h hl, rfl, tableMnemonic_of_second h rfl (holds_long_row h hl) (holds_long_row h hl)⟩
    | true => exact ⟨_, decode_jsr h hl, rfl, tableMnemonic_of_first h rfl (holds_long_row h hl)⟩
  · cases hm : modeBit w with
    | false => exact ⟨_, decode_andReg h hm, rfl, tableMnemonic_of_first h rfl (holds_mode_row h hm)⟩
    | true =>
      exact ⟨_, decode_andImm h hm, rfl, tableMnemonic_of_second h rfl (holds_mode_row h hm) (holds_mode_row h hm)⟩
  · exact ⟨_, decode_ldr h, rfl, tableMnemonic_of_first h rfl (holds_opcode_row h)⟩
  · exact ⟨_, decode_str h, rfl, tableMnemonic_of_first h rfl (holds_opcode_row h)⟩
  · exact ⟨_, decode_rti h, rfl, tableMnemonic_of_first h rfl (holds_opcode_row h)⟩
  · exact ⟨_, decode_notReg h, rfl, tableMnemonic_of_first h rfl (holds_opcode_row h)⟩
  · exact ⟨_, decode_ldi h, rfl, tableMnemonic_of_first h rfl (holds_opcode_row h)⟩
  · exact ⟨_, decode_sti h, rfl, tableMnemonic_of_first h rfl (holds_opcode_row h)⟩
  · exact ⟨_, decode_jmp h, rfl, tableMnemonic_of_first h rfl (holds_opcode_row h)⟩
  · exact ⟨_, decode_res h, rfl, tableMnemonic_of_first h rfl (holds_opcode_row h)⟩
  · exact ⟨_, decode_lea h, rfl, tableMnemonic_of_first h rfl (holds_opcode_row h)⟩
  · exact ⟨_, decode_trap h, wf_decodeTrap _, tableMnemonic_of_trap h⟩

/-- Settles O4: the decoder evaluated on each word. -/
theorem sampleWordsDecode : Obligations.SampleWordsDecode := by
  refine ⟨?_, ?_, ?_, ?_, ?_, ?_, ?_, ?_, ?_, ?_, ?_, ?_, ?_, ?_, ?_, ?_⟩ <;> rfl

/-! ### Ignored bits -/

/-- Flipping bits outside a field leaves the field. -/
theorem extractLsb'_flip (w x : Word) {m : Word} {lo k : Nat} (h : m.extractLsb' lo k = 0#k) :
    (w ^^^ (x &&& m)).extractLsb' lo k = w.extractLsb' lo k := by
  rw [BitVec.extractLsb'_xor, BitVec.extractLsb'_and, h, BitVec.and_zero, BitVec.xor_zero]

theorem getLsbD_flip (w x : Word) {m : Word} {k : Nat} (h : m.getLsbD k = false) :
    (w ^^^ (x &&& m)).getLsbD k = w.getLsbD k := by
  rw [BitVec.getLsbD_xor, BitVec.getLsbD_and, h, Bool.and_false, Bool.xor_false]

theorem regField_flip (w x : Word) {m : Word} {lo : Nat} (h : m.extractLsb' lo 3 = 0#3) :
    regField (w ^^^ (x &&& m)) lo = regField w lo :=
  congrArg BitVec.toFin (extractLsb'_flip w x h)

/-- Settles O3: no field of the word's format meets the mask, so both words decode by the same rule to the same
fields. -/
theorem ignoredBitsDoNotMatter : Obligations.IgnoredBitsDoNotMatter := by
  intro w x
  have hop {m : Word} (hm : m.extractLsb' 12 4 = 0#4) {op : BitVec 4} (h : opcodeOf w = op) :
      opcodeOf (w ^^^ (x &&& m)) = op := (extractLsb'_flip w x hm).trans h
  refine ⟨?addAnd, ?not, ?jmp, ?jsrr, ?trap, ?rtiRes⟩
  case addAnd =>
    have hbit : (w ^^^ (x &&& 0x0018)).getLsbD 5 = w.getLsbD 5 := getLsbD_flip w x rfl
    have h9 : regField (w ^^^ (x &&& 0x0018)) 9 = regField w 9 := regField_flip w x rfl
    have h6 : regField (w ^^^ (x &&& 0x0018)) 6 = regField w 6 := regField_flip w x rfl
    have h0 : regField (w ^^^ (x &&& 0x0018)) 0 = regField w 0 := regField_flip w x rfl
    rintro (h | h) hmode
    · rw [decode_addReg (hop rfl h) (hbit.trans hmode), decode_addReg h hmode, h9, h6, h0]
    · rw [decode_andReg (hop rfl h) (hbit.trans hmode), decode_andReg h hmode, h9, h6, h0]
  case not =>
    intro h
    rw [decode_notReg (hop rfl h), decode_notReg h, regField_flip w x rfl, regField_flip w x rfl]
  case jmp =>
    intro h
    rw [decode_jmp (hop rfl h), decode_jmp h, regField_flip w x rfl]
  case jsrr =>
    intro h hlong
    rw [decode_jsrr (hop rfl h) ((getLsbD_flip w x rfl).trans hlong), decode_jsrr h hlong, regField_flip w x rfl]
  case trap =>
    intro h
    rw [decode_trap (hop rfl h), decode_trap h, trapvect8Field, extractLsb'_flip w x rfl, trapvect8Field]
  case rtiRes =>
    rintro (h | h)
    · rw [decode_rti (hop rfl h), decode_rti h]
    · rw [decode_res (hop rfl h), decode_res h]

/-! ### The default arm -/

theorem decodeOp_of_ge {op : Nat} (h : 16 ≤ op) (w : Word) : decodeOp op w = .error (.badOpcode op) := by
  have hne (c : BitVec 4) : op ≠ c.toNat := by
    have := c.isLt
    omega
  simp only [decodeOp, if_neg (hne _)]

theorem dispatch_of_ge {op : Nat} (h : 16 ≤ op) (w : Word) (s : State) :
    dispatch op w s = .next ((s.setRun .stopped).setDiag (some ⟨op, w, Config.diagText op w⟩)) := by
  rw [dispatch, decodeOp_of_ge h]
  rfl

/-- Settles O5: a word's top four bits are an opcode the decoder knows; past the sixteen the decoder's error stops the
engine with the diagnostic. -/
theorem badOpcodeArmUnreachable : Obligations.BadOpcodeArmUnreachable := by
  refine ⟨fun w s => ?known, fun op w s h => ?past⟩
  case known =>
    obtain ⟨i, hi⟩ := decode_total w
    exact ⟨i, hi, dispatch_of_decode hi s⟩
  case past =>
    exact ⟨_, dispatch_of_ge h w s, rfl, ⟨_, rfl⟩, fun _ => rfl, rfl, rfl, fun _ => rfl, rfl, rfl, rfl⟩

end Sys2Proof.Machine
end

section
/-! The keyboard poll, the loads and stores that wait or read through a pointer, and JSRR (20_memory.md, 42_control.md to
44_store.md). -/

namespace Sys2Proof.Machine

/-! ### The read of KBSR -/

/-- Settles O16: the read of any other address asks no host. -/
theorem memReadPlainAwayFromKbsr : Obligations.MemReadPlainAwayFromKbsr :=
  fun _ _ h => memRead_of_ne h

theorem memRead_kbsr_noKey {s : State} (h : s.keyReady = false) :
    memRead Config.kbsr s = .next (0x0000, s.polledNoKey) := by
  rcases memRead_cases Config.kbsr s with ⟨hne, _⟩ | ⟨_, _, e⟩ | ⟨_, hk, _⟩ | ⟨_, hk, _⟩
  · exact absurd rfl hne
  · exact e
  · exact absurd (h.symm.trans hk) Bool.false_ne_true
  · exact absurd (h.symm.trans hk) Bool.false_ne_true

theorem memRead_kbsr_key {s : State} {c : Word} {h : HostInput} (hk : s.keyReady = true)
    (hc : s.input.keyAvailable.2.readChar = some (c, h)) :
    memRead Config.kbsr s = .next (0x8000, s.polledKey c h) := by
  rcases memRead_cases Config.kbsr s with ⟨hne, _⟩ | ⟨_, hk', _⟩ | ⟨_, _, c', h', hc', e⟩ | ⟨_, _, hr, _⟩
  · exact absurd rfl hne
  · exact absurd (hk'.symm.trans hk) Bool.false_ne_true
  · rw [hc] at hc'
    cases hc'
    exact e
  · rw [readChar_keyAvailable, hr] at hc
    cases hc

theorem polledNoKey_word_ne (s : State) {a : Word} (h : a ≠ Config.kbsr) : s.polledNoKey.word a = s.word a :=
  State.word_memWrite_ne _ h _

theorem polledNoKey_input (s : State) : s.polledNoKey.input = s.input.keyAvailable.2 := rfl

/-- Settles O17: the three ways a poll can go, the answer of `KeyAvailable` and then the host's character deciding. -/
theorem kbsrReadPolls : Obligations.KbsrReadPolls := by
  refine fun s => ⟨fun hk => ?noKey, fun hk c h hc => ?key, fun hk hchar => ?waits⟩
  case noKey =>
    exact ⟨s.polledNoKey, memRead_kbsr_noKey hk, polledNoKey_input s, polledNoKey_word_kbsr s,
      fun _ ha => polledNoKey_word_ne s ha, fun _ => rfl, rfl, rfl, rfl, rfl, rfl, rfl⟩
  case key =>
    exact ⟨s.polledKey c h, memRead_kbsr_key hk hc, rfl, polledKey_word_kbsr s c h, polledKey_word_kbdr s c h,
      (polledKey_frame s c h).word, fun _ => rfl, rfl, rfl, rfl, rfl, rfl, rfl⟩
  case waits =>
    exact memRead_of_not_ready fun hready => hchar (hready rfl hk)

/-- The word a read of KBSR yields (D16). -/
theorem memRead_at_kbsr {a v : Word} {s t : State} (h : memRead a s = .next (v, t)) (ha : a = Config.kbsr) :
    v = 0x8000 ∨ v = 0x0000 := memRead_kbsr (ha ▸ h)

/-! ### Waiting reads -/

theorem memRead_waits_iff (a : Word) (s : State) : memRead a s = .fault .inputWait ↔ ¬ s.readReady a := by
  refine ⟨fun h hready => ?_, memRead_of_not_ready⟩
  obtain ⟨v, t, e⟩ := memRead_of_ready hready
  rw [e] at h
  cases h

/-- A read followed by a part that ends in a next state waits exactly when the read does. -/
theorem andThen_memRead_waits_iff {α : Type} (a : Word) (s : State) (f : Word × State → α) :
    (andThen (memRead a s) fun p => (.next (f p) : Part α)) = .fault .inputWait ↔ ¬ s.readReady a := by
  rw [andThen_eq_fault, memRead_waits_iff]
  refine ⟨fun h => h.elim id ?_, .inl⟩
  rintro ⟨p, -, e⟩
  cases e

theorem loadInto_waits_iff (dr : Reg) (a : Word) (s : State) :
    loadInto dr a s = .fault .inputWait ↔ ¬ s.readReady a :=
  andThen_memRead_waits_iff a s fun p => writeResult dr p.1 p.2

/-- Settles O39: LD, LDR and STI are one read and a write; LDI is a read and then such a load. -/
theorem loadsWaitWithTheirRead : Obligations.LoadsWaitWithTheirRead := by
  refine ⟨fun dr off s => ?ld, fun dr base off s => ?ldr, fun sr off s => ?sti, fun dr off s => ?ldi⟩
  case ld =>
    rw [exec_ld]
    exact loadInto_waits_iff dr _ s
  case ldr =>
    rw [exec_ldr]
    exact loadInto_waits_iff dr _ s
  case sti =>
    rw [exec_sti]
    exact andThen_memRead_waits_iff _ s fun p => p.2.memWrite p.1 (p.2.reg sr)
  case ldi =>
    rw [exec_ldi, andThen_eq_fault, memRead_waits_iff, Prod.exists]
    simp only [loadInto_waits_iff]

/-! ### Loads -/

/-- Settles O34: LDR is a load from the base register plus the offset. -/
theorem loadBaseOffset : Obligations.LoadBaseOffset := by
  refine ⟨fun _ => decode_ldr, ?loads⟩
  case loads =>
    rintro dr base off s ea rfl hready
    exact exists_loaded (exec_ldr s dr base off) hready

theorem exec_ldi_of_reads {dr : Reg} {off : BitVec 9} {ptr v : Word} {s s1 s2 : State}
    (hptr : memRead (s.pc + off.signExtend 16) s = .next (ptr, s1)) (hdata : memRead ptr s1 = .next (v, s2)) :
    exec (.ldi dr off) s = .next (writeResult dr v s2) := by
  rw [exec_ldi, hptr, andThen_next, loadInto_of_read dr hdata]

/-- Settles O33: the pointer's read and the data's read, each plain away from KBSR, then a written result. -/
theorem loadIndirect : Obligations.LoadIndirect := by
  refine ⟨fun _ => decode_ldi, ?loads⟩
  case loads =>
    rintro dr off s pa rfl hready
    obtain ⟨ptr, s1, hptr⟩ := memRead_of_ready hready
    refine ⟨ptr, s1, hptr, memRead_plain hptr, memRead_at_kbsr hptr, fun hready1 => ?data⟩
    case data =>
      obtain ⟨v, s2, hdata⟩ := memRead_of_ready hready1
      exact ⟨v, s2, writeResult dr v s2, hdata, exec_ldi_of_reads hptr hdata, resultWritten dr v s2,
        memRead_plain hdata, memRead_at_kbsr hdata⟩

/-! ### A store and the next fetch -/

/-- A word stored at `pc` is the one the next fetch yields. -/
theorem fetch_memWrite_pc {s : State} (v : Word) (h : s.pc ≠ Config.kbsr) :
    ∃ t, fetch (s.memWrite s.pc v) = .next (v, t) := by
  have hword : (s.memWrite s.pc v).word (s.memWrite s.pc v).pc = v := State.word_memWrite_self s s.pc v
  have hfetch := fetch_of_ne (s := s.memWrite s.pc v) h
  rw [hword] at hfetch
  exact ⟨_, hfetch⟩

/-- Settles O22: each of the three ends in a store at `pc`; the pointer's read of STI moves neither `pc` nor `SR`. -/
theorem storedWordIsFetchedNext : Obligations.StoredWordIsFetchedNext := by
  refine ⟨?st, ?sti, ?str⟩
  case st =>
    rintro sr off s t h haddr hpc
    cases h
    rw [haddr]
    exact fetch_memWrite_pc (s.reg sr) hpc
  case sti =>
    intro sr off s s1 t hptr h hpc
    obtain ⟨ptr, u, hptr', rfl⟩ := execSti_next h
    rw [hptr] at hptr'
    cases hptr'
    have hpc1 : s1.pc = s.pc := (memRead_frame hptr).pc
    rw [← hpc1] at hpc ⊢
    exact fetch_memWrite_pc (s.reg sr) hpc
  case str =>
    rintro sr base off s t h haddr hpc
    cases h
    rw [haddr]
    exact fetch_memWrite_pc (s.reg sr) hpc

/-! ### JSRR -/

/-- Settles O31: the link is written before the base is read, so JSRR R7 reads the link (D22). -/
theorem subroutineCallThroughRegister : Obligations.SubroutineCallThroughRegister := by
  refine ⟨fun _ => decode_jsrr, fun base s => ⟨_, exec_jsrr s base, link_reg_seven s, ?other, ?seven,
    fun _ => link_reg_of_ne s, rfl, fun _ => rfl, rfl, rfl, rfl, rfl, rfl⟩⟩
  case other =>
    exact fun hne => link_reg_of_ne s hne
  case seven =>
    rintro rfl
    exact link_reg_seven s

end Sys2Proof.Machine
end

section
/-! Output and the trap-service routines (45_trap.md). -/

namespace Sys2Proof.Machine

/-! ### Emission -/

/-- The state after the emission of `cs` into a sink that accepts them (R44). -/
def State.extendSink (s : State) (cs : List Byte) : State :=
  s.setSink (s.sink ++ cs) (s.sinkRoom.map (· - cs.length))

section
variable (s : State) (cs ds : List Byte)

theorem State.extendSink_sinkRoom : (s.extendSink cs).sinkRoom = s.sinkRoom.map (· - cs.length) := rfl

variable {s cs} in
theorem emitAll_eq_extendSink (h : s.sinkAccepts cs.length) : emitAll cs s = .next (s.extendSink cs) :=
  emitAll_of_accepts h

theorem emitted_extendSink : Emitted cs s (s.extendSink cs) :=
  ⟨rfl, rfl, fun _ => rfl, rfl, rfl, fun _ => rfl, rfl, rfl, rfl⟩

theorem State.extendSink_append : s.extendSink (cs ++ ds) = (s.extendSink cs).extendSink ds := by
  have hroom : s.sinkRoom.map (· - (cs ++ ds).length) = (s.sinkRoom.map (· - cs.length)).map (· - ds.length) := by
    rw [Option.map_map, List.length_append]
    congr 1
    funext n
    exact Nat.sub_add_eq n cs.length ds.length
  rw [State.extendSink, hroom, ← List.append_assoc]
  rfl

/-- Room for two sequences is room for the first, and then for the second. -/
theorem sinkAccepts_add_iff (n : Nat) :
    s.sinkAccepts (cs.length + n) ↔ s.sinkAccepts cs.length ∧ (s.extendSink cs).sinkAccepts n := by
  simp only [State.sinkAccepts, State.extendSink_sinkRoom]
  cases s.sinkRoom with
  | none => simp
  | some m =>
    simp only [Option.some.injEq, Option.map_some, forall_eq']
    omega

theorem emitAll_nil : emitAll [] s = .next s := by
  rw [emitAll_of_accepts fun _ _ => Nat.zero_le _, List.append_nil, List.length_nil]
  simp only [Nat.sub_zero, Option.map_id']
  rfl

/-- Emitting one sequence and then another is emitting both: either both are accepted, or the first rejected character
is in one of them. -/
theorem emitAll_append : emitAll (cs ++ ds) s = andThen (emitAll cs s) fun t => emitAll ds t := by
  by_cases hcs : s.sinkAccepts cs.length
  · rw [emitAll_eq_extendSink hcs, andThen_next]
    by_cases hds : (s.extendSink cs).sinkAccepts ds.length
    · have hboth : s.sinkAccepts (cs ++ ds).length := by
        rw [List.length_append, sinkAccepts_add_iff]
        exact ⟨hcs, hds⟩
      rw [emitAll_eq_extendSink hds, emitAll_eq_extendSink hboth, State.extendSink_append]
    · obtain ⟨k, hk, hlt⟩ := not_sinkAccepts.mp hds
      obtain ⟨n, hn, rfl⟩ := Option.map_eq_some_iff.mp hk
      have hle := hcs n hn
      rw [emitAll_of_room hk hlt, emitAll_of_room hn (by rw [List.length_append]; omega), List.take_append,
        List.take_of_length_le hle, ← List.append_assoc]
      rfl
  · obtain ⟨n, hn, hlt⟩ := not_sinkAccepts.mp hcs
    rw [emitAll_of_room hn hlt, emitAll_of_room hn (by rw [List.length_append]; omega),
      List.take_append_of_le_length (Nat.le_of_lt hlt)]
    rfl

end

/-- A sink without room for one character has room for none. -/
theorem not_sinkAccepts_one {s : State} : ¬ s.sinkAccepts 1 ↔ s.sinkRoom = some 0 := by
  rw [not_sinkAccepts]
  refine ⟨?_, fun h => ⟨0, h, Nat.zero_lt_one⟩⟩
  rintro ⟨n, hn, hlt⟩
  rwa [Nat.lt_one_iff.mp hlt] at hn

theorem emit_of_full {s : State} (c : Byte) (h : s.sinkRoom = some 0) :
    emit c s = .fault (.fatalIO { input := s.input, sink := s.sink }) := by
  rw [emit, emitAll_of_room h (cs := [c]) Nat.zero_lt_one, List.take_zero, List.append_nil]

theorem emit_of_accepts {s : State} (c : Byte) (h : s.sinkAccepts 1) : emit c s = .next (s.extendSink [c]) :=
  emitAll_eq_extendSink h

theorem exists_emitted {c : Byte} {s : State} (h : s.sinkAccepts 1) : ∃ t, emit c s = .next t ∧ Emitted [c] s t :=
  ⟨_, emit_of_accepts c h, emitted_extendSink s [c]⟩

/-- Settles O51: `emitAll` emits the two parts of a sequence in turn, and one character is accepted unless the room
is 0. -/
theorem emitOneAfterTheOther : Obligations.EmitOneAfterTheOther :=
  fun s => ⟨emitAll_nil s, fun c cs => emitAll_append s [c] cs, fun c => emit_of_full c,
    fun _ h => exists_emitted (not_not.mp (mt not_sinkAccepts_one.mp h))⟩

/-! ### GETC, OUT, HALT and the unlisted vectors -/

theorem not_hasChar {s : State} : ¬ s.hasChar ↔ s.input.readChar = none := by simp [State.hasChar]

theorem exec_trapGetc_of_char {s : State} {c : Word} {h : HostInput} (hc : s.input.readChar = some (c, h)) :
    exec .trapGetc s = .next ((s.setInput h).setReg 0 c) := by
  rw [exec_trapGetc, readChar_of_some hc, andThen_next]

theorem exec_trapGetc_of_none {s : State} (hc : s.input.readChar = none) :
    exec .trapGetc s = .fault .inputWait := by
  rw [exec_trapGetc, readChar_of_none hc, andThen_fault]

/-- Settles O41: GETC reads the host's character and writes it to R0. -/
theorem getcReadsOneCharacter : Obligations.GetcReadsOneCharacter := by
  refine ⟨fun _ => decode_trap_of_vector, fun s => ⟨fun c h hc => ?reads, fun hc => ?waits⟩⟩
  case reads =>
    exact ⟨_, exec_trapGetc_of_char hc, State.reg_setReg_self _ 0 c, rfl, fun r hr => State.reg_setReg_ne _ hr c,
      rfl, rfl, fun _ => rfl, rfl, rfl, rfl, rfl⟩
  case waits =>
    exact exec_trapGetc_of_none (not_hasChar.mp hc)

/-- Settles O42: OUT is the emission of one character. -/
theorem outEmitsLowByte : Obligations.OutEmitsLowByte :=
  ⟨fun _ => decode_trap_of_vector,
    fun s => ⟨exists_emitted, fun h => emit_of_full (lowByte (s.reg 0)) (not_sinkAccepts_one.mp h)⟩⟩

/-- Settles O46: the notice is emitted before the run state is set, so a rejected notice is no stop. -/
theorem haltNoticeThenStops : Obligations.HaltNoticeThenStops := by
  refine ⟨fun _ => decode_trap_of_vector, fun s => ⟨fun h => ?stops, fun n hn hlt => ?rejected⟩⟩
  case stops =>
    exact ⟨s.halted, exec_trapHalt_of_accepts h, rfl, rfl, fun _ => rfl, rfl, rfl, fun _ => rfl, rfl, rfl⟩
  case rejected =>
    rw [exec_trapHalt, emitAll_of_room hn hlt, andThen_fault]

/-- Settles O47: a vector outside the six decodes to TRAP_other, whose meaning is the state it is given. -/
theorem unlistedTrapDoesNothing : Obligations.UnlistedTrapDoesNothing := by
  refine ⟨fun w hop hv => ?decodes, fun v s => exec_trapOther s v⟩
  case decodes =>
    rw [decode_trap hop, trapvect8Field, decodeTrap_of_unnamed hv]

/-! ### IN -/

/-- IN whose prompt is accepted and that has no character waits. -/
theorem exec_trapIn_of_none {s : State} (hprompt : s.sinkAccepts Config.inPrompt.length)
    (hc : s.input.readChar = none) : exec .trapIn s = .fault .inputWait := by
  have hread : readChar (s.extendSink Config.inPrompt) = .fault .inputWait := readChar_of_none hc
  rw [exec_trapIn, promptReadEcho, emitAll_eq_extendSink hprompt, andThen_next, hread]
  rfl

/-- IN whose prompt is accepted and that has a character goes on to the echo. -/
theorem exec_trapIn_of_char {s : State} {c : Word} {h : HostInput} (hprompt : s.sinkAccepts Config.inPrompt.length)
    (hc : s.input.readChar = some (c, h)) :
    exec .trapIn s = andThen (emit (lowByte c) ((s.extendSink Config.inPrompt).setInput h)) fun t =>
      .next (t.setReg 0 c) := by
  have hread : readChar (s.extendSink Config.inPrompt) = .next (c, (s.extendSink Config.inPrompt).setInput h) :=
    readChar_of_some hc
  change execIn s = _
  rw [execIn, trapEntry_eq, emitAll_eq_extendSink hprompt, andThen_next, hread]
  rfl

/-- Settles O44: the prompt, the read and the echo decide in turn. -/
theorem inPromptsReadsAndEchoes : Obligations.InPromptsReadsAndEchoes := by
  refine ⟨fun _ => decode_trap_of_vector, fun s => ⟨fun n hn hlt => ?prompt, fun hprompt hc => ?waits,
    fun c h hc hprompt hecho => ?echo, fun c h hc hroom => ?done⟩⟩
  case prompt =>
    rw [exec_trapIn, promptReadEcho, emitAll_of_room hn hlt, andThen_fault, andThen_fault]
  case waits =>
    exact exec_trapIn_of_none hprompt (not_hasChar.mp hc)
  case echo =>
    have hfull : (s.extendSink Config.inPrompt).sinkRoom = some 0 :=
      not_sinkAccepts_one.mp fun hone => hecho ((sinkAccepts_add_iff s Config.inPrompt 1).mpr ⟨hprompt, hone⟩)
    have hemit : emit (lowByte c) ((s.extendSink Config.inPrompt).setInput h) =
        .fault (.fatalIO { input := h, sink := s.sink ++ Config.inPrompt }) := emit_of_full _ hfull
    rw [exec_trapIn_of_char hprompt hc, hemit, andThen_fault]
  case done =>
    obtain ⟨hprompt, hone⟩ := (sinkAccepts_add_iff s Config.inPrompt 1).mp hroom
    have hemit := emit_of_accepts (s := (s.extendSink Config.inPrompt).setInput h) (lowByte c) hone
    have hexec := exec_trapIn_of_char hprompt hc
    rw [hemit, andThen_next] at hexec
    exact ⟨_, hexec, State.reg_setReg_self _ 0 c, rfl, rfl, fun r hr => State.reg_setReg_ne _ hr c, rfl, rfl,
      fun _ => rfl, rfl, rfl⟩

/-! ### The string loop -/

section
variable {unpack : Word → List Byte}

/-- The bounded loop of a routine and the unbounded loop have the same outcomes: the fuel is enough, so running out of it
means that no fuel is (log 31). -/
theorem scan_iff_scanString (hne : ∀ w, unpack w ≠ []) (a : Word) (s : State) :
    (∀ o, Scan unpack a s o → scanString unpack (scanFuel s) a s = o) ∧
    ((∀ o, ¬ Scan unpack a s o) ↔ scanString unpack (scanFuel s) a s = .fault .noEnd) := by
  have hsound (o : Part State) (h : Scan unpack a s o) : scanString unpack (scanFuel s) a s = o := by
    obtain ⟨f, hf⟩ := h.scanString
    by_cases hend : scanString unpack (scanFuel s) a s = .fault .noEnd
    · exact absurd (hf.symm.trans (scanFuel_enough hne hend f)) h.ne_noEnd
    · have hlong := scanString_add hf h.ne_noEnd (scanFuel s)
      rwa [Nat.add_comm, scanString_add rfl hend f] at hlong
  refine ⟨hsound, fun hnone => ?_, fun hend o h => h.ne_noEnd ((hsound o h).symm.trans hend)⟩
  by_contra hend
  exact hnone _ (Scan.of_scanString rfl hend)

/-- The routines' fuel covers a run of words that does not meet KBSR, and one turn more. -/
theorem exists_scanFuel_eq {n : Nat} {a : Word} (hk : ∀ k, k < n → a + BitVec.ofNat 16 k ≠ Config.kbsr) (s : State) :
    ∃ f, scanFuel s = n + (f + 1) := by
  have hn := length_lt_of_ne_kbsr hk
  refine ⟨scanFuel s - n - 1, ?_⟩
  unfold scanFuel
  omega

section
variable {s : State} {a : Word} {n : Nat} {cs : List Byte}
  (hnz : ∀ k, k < n → s.word (a + BitVec.ofNat 16 k) ≠ 0x0000)
  (hk : ∀ k, k < n → a + BitVec.ofNat 16 k ≠ Config.kbsr)
  (hcs : cs = (List.range n).flatMap fun k => unpack (s.word (a + BitVec.ofNat 16 k)))
include hnz hk hcs

theorem scanString_rejected_within {m : Nat} (hroom : s.sinkRoom = some m) (hm : m < cs.length) :
    scanString unpack (scanFuel s) a s = .fault (.fatalIO { input := s.input, sink := s.sink ++ cs.take m }) := by
  obtain ⟨f, hf⟩ := exists_scanFuel_eq hk s
  rw [hf]
  exact scanString_words_rejected n (f + 1) a s hnz hk cs hcs m hroom hm

theorem scanString_ends (hacc : s.sinkAccepts cs.length) (hend : a + BitVec.ofNat 16 n ≠ Config.kbsr)
    (hzero : s.word (a + BitVec.ofNat 16 n) = 0x0000) :
    scanString unpack (scanFuel s) a s = .next (s.extendSink cs) := by
  obtain ⟨f, hf⟩ := exists_scanFuel_eq hk s
  have hread : memRead (a + BitVec.ofNat 16 n) (s.extendSink cs) = .next (0x0000, s.extendSink cs) :=
    (memRead_of_ne hend).trans (congrArg (Host.Outcome.next <| Prod.mk · (s.extendSink cs)) hzero)
  rw [hf, scanString_words n (f + 1) a s hnz hk cs hcs hacc]
  exact scanString_zero f hread

theorem scanString_ends_at_kbsr (hacc : s.sinkAccepts cs.length) (hend : a + BitVec.ofNat 16 n = Config.kbsr)
    (hkey : s.keyReady = false) :
    scanString unpack (scanFuel s) a s = .next (s.extendSink cs).polledNoKey := by
  obtain ⟨f, hf⟩ := exists_scanFuel_eq hk s
  rw [hf, scanString_words n (f + 1) a s hnz hk cs hcs hacc, hend]
  exact scanString_zero f (memRead_kbsr_noKey (s := s.extendSink cs) hkey)

end
end

/-- Settles O48: PUTS and PUTSP are the bounded loop over routines that emit at least one character a word. -/
theorem stringLoopIsExact : Obligations.StringLoopIsExact := by
  intro s
  obtain ⟨hputs, hputsEnd⟩ := scan_iff_scanString unpackOne_ne_nil (s.reg 0) s
  obtain ⟨hputsp, hputspEnd⟩ := scan_iff_scanString unpackTwo_ne_nil (s.reg 0) s
  exact ⟨hputs, hputsEnd, hputsp, hputspEnd⟩

/-- What a string that ends at KBSR with no key leaves (D13). -/
theorem polledNoKey_extendSink_frame (s : State) (cs : List Byte) :
    (s.extendSink cs).polledNoKey.sink = s.sink ++ cs ∧ (s.extendSink cs).polledNoKey.word Config.kbsr = 0x0000 ∧
      (∀ a, a ≠ Config.kbsr → (s.extendSink cs).polledNoKey.word a = s.word a) ∧
      (s.extendSink cs).polledNoKey.input = s.input.keyAvailable.2 ∧ SameRegs s (s.extendSink cs).polledNoKey ∧
      (s.extendSink cs).polledNoKey.pc = s.pc ∧ (s.extendSink cs).polledNoKey.cond = s.cond ∧
      (s.extendSink cs).polledNoKey.run = s.run ∧ (s.extendSink cs).polledNoKey.diag = s.diag :=
  ⟨rfl, polledNoKey_word_kbsr _, fun _ ha => polledNoKey_word_ne _ ha, rfl, fun _ => rfl, rfl, rfl, rfl, rfl⟩

/-- The characters PUTS emits for `n` words from R0 on (R174). -/
def putsChars (s : State) (n : Nat) : List Byte :=
  (List.range n).map fun k => (s.word (s.reg 0 + BitVec.ofNat 16 k)).extractLsb' 0 8

theorem putsChars_length (s : State) (n : Nat) : (putsChars s n).length = n := by
  rw [putsChars, List.length_map, List.length_range]

theorem putsChars_take (s : State) {m n : Nat} (h : m ≤ n) : (putsChars s n).take m = putsChars s m := by
  rw [putsChars, ← List.map_take, List.take_range, Nat.min_eq_left h, putsChars]

theorem putsChars_eq_flatMap (s : State) (n : Nat) :
    putsChars s n = (List.range n).flatMap fun k => unpackOne (s.word (s.reg 0 + BitVec.ofNat 16 k)) := by
  rw [putsChars, List.map_eq_flatMap]
  rfl

/-- Settles O43: the loop with one low byte for each word. -/
theorem putsWritesString : Obligations.PutsWritesString := by
  refine ⟨fun _ => decode_trap_of_vector, fun s n hnz hk => ?_⟩
  have hcs := putsChars_eq_flatMap s n
  have hlen := putsChars_length s n
  refine ⟨fun m hroom hm => ?rejected, fun hacc hend hzero => ?ends, fun hacc hend hkey => ?polls⟩
  case rejected =>
    have h := scanString_rejected_within hnz hk hcs hroom (hlen.symm ▸ hm)
    rw [putsChars_take s (Nat.le_of_lt hm)] at h
    exact h
  case ends =>
    rw [← hlen] at hacc
    exact ⟨_, scanString_ends hnz hk hcs hacc hend hzero, emitted_extendSink s _⟩
  case polls =>
    rw [← hlen] at hacc
    exact ⟨_, scanString_ends_at_kbsr hnz hk hcs hacc hend hkey, polledNoKey_extendSink_frame s _⟩

/-- The characters the statement of PUTSP lists for a word are those the routine emits (R176, D32). -/
theorem unpackTwo_eq (w : Word) :
    unpackTwo w = if w.extractLsb' 8 8 = 0x00 then [w.extractLsb' 0 8] else [w.extractLsb' 0 8, w.extractLsb' 8 8] := by
  unfold unpackTwo highByte lowByte
  split <;> rfl

/-- Settles O45: the loop with the low byte of each word and its high byte if that is not zero. -/
theorem putspWritesPackedString : Obligations.PutspWritesPackedString := by
  refine ⟨fun _ => decode_trap_of_vector, fun s n cs hnz hk hcs => ?_⟩
  have hcs' : cs = (List.range n).flatMap fun k => unpackTwo (s.word (s.reg 0 + BitVec.ofNat 16 k)) := by
    simp only [hcs, unpackTwo_eq]
  refine ⟨fun m hroom hm => ?rejected, fun hacc hend hzero => ?ends, fun hacc hend hkey => ?polls⟩
  case rejected => exact scanString_rejected_within hnz hk hcs' hroom hm
  case ends => exact ⟨_, scanString_ends hnz hk hcs' hacc hend hzero, emitted_extendSink s cs⟩
  case polls => exact ⟨_, scanString_ends_at_kbsr hnz hk hcs' hacc hend hkey, polledNoKey_extendSink_frame s cs⟩

end Sys2Proof.Machine
end

section
/-! The step over whole cycles, waiting for input, the host's requests and field values (40_cycle.md,
70_reset_and_hazards.md, 10_state.md sections 4 and 5, 20_memory.md section 4, 30_encoding.md section 2). -/

namespace Sys2Proof.Machine

/-! ### The step is the decoded instruction -/

section
variable {s s1 : State} {w : Word} {i : Instr}

theorem step_eq_hold (hrun : s.run = .running) (hf : fetch s = .next (w, s1)) (hd : decode w = .ok i) :
    step s = holdWhileWaiting s (exec i s1) := by
  rw [step_running hrun, cycle_of_fetch hf hd]

/-- A Running step whose instruction waits holds the state (R242). -/
theorem step_of_exec_wait (hrun : s.run = .running) (hf : fetch s = .next (w, s1)) (hd : decode w = .ok i)
    (hx : exec i s1 = .fault .inputWait) : step s = .next s := by
  rw [step_eq_hold hrun hf hd, hx]
  rfl

theorem step_of_exec_fault {f : Fault} (hrun : s.run = .running) (hf : fetch s = .next (w, s1))
    (hd : decode w = .ok i) (hne : f ≠ .inputWait) (hx : exec i s1 = .fault f) : step s = .fault f := by
  rw [step_eq_hold hrun hf hd, hx]
  cases f with
  | inputWait => exact absurd rfl hne
  | fatalIO left => rfl
  | noEnd => rfl

end

theorem advancePc_eq_ite (s : State) :
    advancePc s = if s.pc.toNat < Config.maxAddress.toNat then s.setPc (s.pc + 1) else s := by
  simp only [advancePc, BitVec.lt_def]

/-- Settles O6: the cycle after the fetch is the decoded instruction, and only the wait is turned into the old state. -/
theorem stepRunsDecodedInstruction : Obligations.StepRunsDecodedInstruction := by
  intro s s1 w i hrun hf hd
  refine ⟨fun t => step_of_exec_next hrun hf hd, step_of_exec_wait hrun hf hd,
    fun f hne => step_of_exec_fault hrun hf hd hne, exec_not_refused i s1, fun hpc => ?plain⟩
  case plain =>
    rw [fetch_of_ne hpc] at hf
    cases hf
    exact ⟨rfl, advancePc_eq_ite s⟩

/-- Settles O10: dispatching on the word fetched runs what it decodes to; a Stopped step is the identity. -/
theorem runConditionTestedBeforeFetch : Obligations.RunConditionTestedBeforeFetch := by
  refine ⟨fun s hrun w s1 hf t hx => ?running, fun s hrun => run_of_held (step_stopped hrun)⟩
  case running =>
    obtain ⟨i, hd⟩ := decode_total w
    rw [dispatch_of_decode hd] at hx
    exact step_of_exec_next hrun hf hd hx

/-! ### Waiting for input -/

/-- A Running step whose fetch waits holds the state. -/
theorem step_of_fetch_wait {s : State} (hrun : s.run = .running) (hready : ¬ s.readReady s.pc) :
    step s = .next s := by
  rw [step_running hrun, cycle, fetch, memRead_of_not_ready hready]
  rfl

theorem advancePc_input (s : State) : (advancePc s).input = s.input := by
  rw [advancePc_eq, State.setPc_input]

theorem advancePc_sinkRoom (s : State) : (advancePc s).sinkRoom = s.sinkRoom := by
  rw [advancePc_eq, State.setPc_sinkRoom]

/-- Settles O55: in each of the three cases one step holds the state, so every number of steps does. -/
theorem waitingCycleIsHeld : Obligations.WaitingCycleIsHeld := by
  intro s hrun hchar hcase
  have hnone : (advancePc s).input.readChar = none := by
    rw [advancePc_input]
    exact not_hasChar.mp hchar
  refine run_of_held ?_
  rcases hcase with ⟨hpc, hkey⟩ | ⟨hpc, hdecode⟩ | ⟨hpc, hdecode, hprompt⟩
  · exact step_of_fetch_wait hrun fun hready => hchar (hready hpc hkey)
  · exact step_of_exec_wait hrun (fetch_of_ne hpc) hdecode (exec_trapGetc_of_none hnone)
  · have hprompt' : (advancePc s).sinkAccepts Config.inPrompt.length := by
      rw [State.sinkAccepts, advancePc_sinkRoom]
      exact hprompt
    exact step_of_exec_wait hrun (fetch_of_ne hpc) hdecode (exec_trapIn_of_none hprompt' hnone)

/-- A host with nothing to return hands over the delivered character next, and is then as it was. -/
theorem readChar_deliver {s : State} (c : Word) (h : s.input.readChar = none) :
    (deliver c s).input.readChar = some (c, s.input) := by
  change ({ s.input with chars := s.input.chars ++ [c] } : HostInput).readChar = _
  generalize s.input = input at h
  obtain ⟨answers, chars, held⟩ := input
  cases chars with
  | nil => rfl
  | cons c' cs => cases h

/-- Settles O56: the delivered state fetches the same GETC, which now has its character. -/
theorem deliveredCharacterEndsWait : Obligations.DeliveredCharacterEndsWait := by
  intro s c hrun hchar hpc hdecode
  have hread : (advancePc (deliver c s)).input.readChar = some (c, s.input) := by
    rw [advancePc_input]
    exact readChar_deliver c (not_hasChar.mp hchar)
  have hstep := step_of_exec_next (s := deliver c s) hrun (fetch_of_ne hpc) hdecode (exec_trapGetc_of_char hread)
  obtain ⟨hregs, hcond, hmem, hrun', -⟩ := advancePc_onlyPcMoved (deliver c s)
  exact ⟨_, hstep, State.reg_setReg_self _ 0 c, rfl, hrun'.trans hrun, advancePc_pc_of_lt (s := deliver c s),
    fun r hr => (State.reg_setReg_ne _ hr c).trans (hregs r), hcond, hmem⟩

/-! ### Reset and the host's requests -/

theorem resetWith_reg (m : Memory) (r : Reg) : (State.resetWith m).reg r = 0x0000 := by
  simp [State.reg, State.resetWith]

/-- Settles O57: the reset state with the two ends of the host's interface put back. -/
theorem resetGivesStatedValues : Obligations.ResetGivesStatedValues := by
  refine ⟨resetWith_reg [], rfl, rfl, rfl, fun m s => ⟨fun hrun => ?stopped, fun hrun => ?running⟩⟩
  case stopped =>
    exact ⟨((State.resetWith m).setInput s.input).setSink s.sink s.sinkRoom, whileStopped_stopped hrun _,
      resetWith_reg m, rfl, rfl, rfl, fun _ => rfl, rfl, rfl, rfl, rfl⟩
  case running =>
    exact whileStopped_running hrun _

/-- Settles O58: each request is `whileStopped` of one state update, or a read of the Stopped state. -/
theorem hostRequestsWhileStopped : Obligations.HostRequestsWhileStopped := by
  refine ⟨fun s hrun => ⟨?run, ?setReg, ?setPc, ?setCond, ?setWord, ?reads⟩, fun s hrun => ?refused⟩
  case run =>
    exact ⟨_, whileStopped_stopped hrun _, rfl, fun _ => rfl, rfl, rfl, fun _ => rfl, rfl, rfl, rfl, rfl⟩
  case setReg =>
    exact fun i v => ⟨_, whileStopped_stopped hrun _, s.reg_setReg_self i v, fun _ hr => s.reg_setReg_ne hr v, rfl, rfl,
      fun _ => rfl, rfl, rfl, rfl, rfl, rfl⟩
  case setPc =>
    exact fun v => ⟨_, whileStopped_stopped hrun _, rfl, setPc_onlyPcMoved s v⟩
  case setCond =>
    exact fun v => ⟨_, whileStopped_stopped hrun _, rfl, fun _ => rfl, rfl, fun _ => rfl, rfl, rfl, rfl, rfl, rfl⟩
  case setWord =>
    exact fun a v => ⟨_, whileStopped_stopped hrun _, wordStored a v s⟩
  case reads =>
    simp only [testReadReg, testReadPc, testReadCond, testReadWord, hrun, implies_true, and_self]
  case refused =>
    have hrefused (f : State → Part State) : whileStopped s f = .refused .notStopped := whileStopped_running hrun f
    refine ⟨hrefused _, fun _ _ => hrefused _, fun _ => hrefused _, fun _ => hrefused _, fun _ _ => hrefused _,
      ?_, ?_, ?_, ?_, fun _ => hrefused _⟩ <;>
      simp only [testReadReg, testReadPc, testReadCond, testReadWord, hrun, implies_true]

/-! ### Program images -/

section
variable {bytes : List Byte} {s : State} (hrun : s.run = .stopped)
include hrun

theorem loadImage_of_words {origin : Word} {ws : List Word} (h : imageWords bytes = some (origin :: ws)) :
    loadImage bytes s = .next (s.setMem (storeWords s.mem origin ws)) := by
  simp only [loadImage, whileStopped_stopped hrun, h]

theorem loadImage_of_odd (h : imageWords bytes = none) : loadImage bytes s = .refused .badImage := by
  simp only [loadImage, whileStopped_stopped hrun, h]

theorem loadImage_nil : loadImage [] s = .refused .badImage := by
  simp only [loadImage, whileStopped_stopped hrun, imageWords]

end

/-- Settles O60: an even number of bytes is half as many words, the first the origin; an odd number, or no byte, is no
image. -/
theorem onlyEvenImagesLoad : Obligations.OnlyEvenImagesLoad := by
  refine fun bytes s hrun => ⟨fun ⟨heven, htwo⟩ => ?loads, fun h => ?refused⟩
  case loads =>
    obtain ⟨words, hwords, hlen⟩ := imageWords_even bytes heven
    obtain ⟨origin, ws, rfl⟩ := List.exists_cons_of_length_pos (l := words) (by omega)
    exact ⟨_, loadImage_of_words hrun hwords⟩
  case refused =>
    by_cases heven : bytes.length % 2 = 0
    · obtain rfl : bytes = [] := List.eq_nil_of_length_eq_zero (by omega)
      exact loadImage_nil hrun
    · exact loadImage_of_odd hrun (imageWords_odd bytes heven)

/-! ### Field values -/

/-- Settles O54: `sext` is two's-complement extension, which keeps the signed value, and an `n`-bit value has the
`n`-bit range. -/
theorem fieldsKeepSignedValue : Obligations.FieldsKeepSignedValue := by
  intro n f hpos hle
  have hvalue : (sext f).toInt = f.toInt := by
    rw [sext_eq_signExtend hpos hle, BitVec.toInt_signExtend_of_le hle]
  rw [hvalue]
  exact ⟨rfl, f.le_toInt, BitVec.toInt_lt⟩

end Sys2Proof.Machine
end
